-- ==== Sys2Proof/Config.lean ====
section
/-! DEFINITION. Sys2Proof/Config.lean: the named implementation parameters of 00_scope.md R6, at the
source's values (UNVERIFIED there: "unaudited"; log 8), and the bound on the run loop that follows from them (40_fetch_decode_execute.md R89).
The machine has no free value: 70_reset_and_hazards.md R158 ("A model needs no draws, no oracle"). -/

namespace Sys2Proof.Config

/-- R6: bytes of Addressable Memory, addresses 0 .. 4095. -/
abbrev MEM_SIZE : Nat := 4096

/-- R6: general registers V0 .. V15. -/
abbrev NREGS : Nat := 16

/-- R6: width of a general register. -/
abbrev REG_BITS : Nat := 8

/-- R6: index of the flag register VF. -/
abbrev FLAG : Nat := 15

/-- R6: number of call stack entries; the stack pointer ranges over 0 .. `STACK_DEPTH`. -/
abbrev STACK_DEPTH : Nat := 16

/-- R6: width of a call stack entry. -/
abbrev STACK_BITS : Nat := 16

/-- R6: width of an instruction word. -/
abbrev WORD_BITS : Nat := 16

/-- R6, R24 (decision D1): width of the program counter. -/
abbrev PC_BITS : Nat := 16

/-- The last address a 16-bit word may start at (R43: `MEM_SIZE - 2`). -/
abbrev LAST_WORD : Nat := MEM_SIZE - 2

/-- R89: a run has fewer iterations than this (`2048 ^ 18` at the source's values): one own iteration
of an activation for each even address, and two more factors than the stack has entries. -/
def RUN_BOUND : Nat := (MEM_SIZE / 2) ^ (STACK_DEPTH + 2)

end Sys2Proof.Config
end

