-- ==== Sys2Proof/Word.lean ====
section
/-! DEFINITION. Sys2Proof/Word.lean: the bit vectors of the machine. All values are unsigned
(00_scope.md R9) and bit 0 is the least significant (R7). The widths are those of R6
(`Config.REG_BITS`, `WORD_BITS`, `STACK_BITS`, `PC_BITS`), written out so that a width never varies
inside a proof (DESIGN CHOICE, log 9); Laws/State.lean checks that the two agree. -/

namespace Sys2Proof

/-- A byte of memory, and the value of a general register (R6: `REG_BITS` = 8). -/
abbrev Byte := BitVec 8

/-- An instruction word, a program counter, a call stack entry (R6: each 16 bits). -/
abbrev Word := BitVec 16

/-- The 12-bit address field `nnn` of CALL (30_encoding.md R61). -/
abbrev Addr := BitVec 12

/-- A general register index 0 .. 15 (00_scope.md R11). -/
abbrev RegIdx := Fin Config.NREGS

end Sys2Proof
end

