-- ==== Sys2Proof/Syntax.lean ====
section
/-! DEFINITION. Sys2Proof/Syntax.lean: the instructions, one constructor for each row of
spec/opcode_table.json (30_encoding.md R64), the catch-all row among them. -/

namespace Sys2Proof

/-- An instruction word after decoding. -/
inductive Instr where
  /-- HALT, `0x0000` (41_control_transfer.md R92). -/
  | halt
  /-- RET, `0x00EE` (R93). -/
  | ret
  /-- CALL `nnn`, `0x2nnn` (R94). -/
  | call (nnn : Addr)
  /-- ADD `Vx, Vy`, `0x8xy4` (42_arithmetic.md R100). -/
  | add (x y : RegIdx)
  /-- The catch-all row UNIMPLEMENTED: any other word `w` (30_encoding.md R66). -/
  | unimplemented (w : Word)
deriving DecidableEq, Repr

end Sys2Proof
end

