-- ==== Sys2Proof/WellFormed.lean ====
section
/-! DEFINITION. Sys2Proof/WellFormed.lean: which terms of `Instr` are instructions of this hardware.
The operands of CALL and ADD are in range by their types (30_encoding.md R62); the catch-all row is an
instruction only for a word that no defined row matches (R64, R66). The patterns are the mask and match
columns of R64; the decoder is written from the field conditions instead, so that the two can be compared. -/

namespace Sys2Proof

/-- R64, row HALT: mask `0xFFFF`, match `0x0000`. -/
def matchesHalt (w : Word) : Bool := w &&& 0xFFFF#16 == 0x0000#16

/-- R64, row RET: mask `0xFFFF`, match `0x00EE`. -/
def matchesRet (w : Word) : Bool := w &&& 0xFFFF#16 == 0x00EE#16

/-- R64, row CALL: mask `0xF000`, match `0x2000`. -/
def matchesCall (w : Word) : Bool := w &&& 0xF000#16 == 0x2000#16

/-- R64, row ADD: mask `0xF00F`, match `0x8004`. -/
def matchesAdd (w : Word) : Bool := w &&& 0xF00F#16 == 0x8004#16

/-- R66: no defined pattern matches `w`. -/
def matchesNoRow (w : Word) : Bool :=
  !matchesHalt w && !matchesRet w && !matchesCall w && !matchesAdd w

/-- The check: a term stands for the words of its row, and the catch-all only for the rest. -/
def Instr.wellFormed : Instr → Bool
  | .halt => true
  | .ret => true
  | .call _ => true
  | .add _ _ => true
  | .unimplemented w => matchesNoRow w

end Sys2Proof
end

