-- ==== Sys2Proof/Decode.lean ====
section
/-! DEFINITION. Sys2Proof/Decode.lean: the fields of an instruction word (30_encoding.md R61), the
decoder (R63, R64 and 40_fetch_decode_execute.md R85), the encoder (R69), and the decoder over bytes and
over words numbered as spec/opcode_table.json numbers them. -/

namespace Sys2Proof

/-! ### Fields (R61) -/

/-- `c = w[15:12]`, the primary opcode family. -/
def fieldC (w : Word) : BitVec 4 := w.extractLsb' 12 4

/-- `x = w[11:8]`, the first register index. -/
def fieldX (w : Word) : BitVec 4 := w.extractLsb' 8 4

/-- `y = w[7:4]`, the second register index. -/
def fieldY (w : Word) : BitVec 4 := w.extractLsb' 4 4

/-- `d = w[3:0]`, the sub-operation selector. -/
def fieldD (w : Word) : BitVec 4 := w.extractLsb' 0 4

/-- `nnn = w[11:0]`, the address. -/
def fieldNNN (w : Word) : Addr := w.extractLsb' 0 12

/-- R62: a 4-bit field is used as a register index directly; it is always in range. -/
def regIndex (f : BitVec 4) : RegIdx := ⟨f.toNat, f.isLt⟩

/-! ### Decoding -/

/-- R85: dispatch on the fields. Total (R63): every other word is the catch-all row, by name. -/
def decodeWord (w : Word) : Instr :=
  if w = 0x0000#16 then .halt
  else if w = 0x00EE#16 then .ret
  else if fieldC w = 0x2#4 then .call (fieldNNN w)
  else if fieldC w = 0x8#4 ∧ fieldD w = 0x4#4 then .add (regIndex (fieldX w)) (regIndex (fieldY w))
  else .unimplemented w

/-- Why bytes are no instruction: there are fewer than the two an instruction takes (R60). -/
inductive DecodeError where
  | truncated (got : Nat)
deriving DecidableEq, Repr

/-- R42: the word whose high byte comes first. -/
def wordOfBytes (hi lo : Byte) : Word := hi ++ lo

/-- R42: bits 15..8. -/
def highByte (w : Word) : Byte := w.extractLsb' 8 8

/-- R42: bits 7..0. -/
def lowByte (w : Word) : Byte := w.extractLsb' 0 8

/-- The decoder over bytes as they stand in memory (R60: two bytes, the high one first), with the rest
of the bytes. It rejects a truncated word by name. -/
def decodeBytes : List Byte → Except DecodeError (Instr × List Byte)
  | hi :: lo :: rest => .ok (decodeWord (wordOfBytes hi lo), rest)
  | bytes => .error (.truncated bytes.length)

/-- The word whose low `nbits` bits are those of `w`; every bit above them is 0. -/
def tableWord (nbits w : Nat) : Word := BitVec.ofNat 16 (w % 2 ^ nbits)

/-- The instruction the decoder reads from an instruction whose bits are `w`, numbered as
spec/opcode_table.json numbers them. Every row of the table has 16 bits; a longer word is refused
(DESIGN CHOICE, log 11). -/
def decodeTableWord (nbits w : Nat) : Option Instr :=
  if nbits ≤ Config.WORD_BITS then
    match decodeBytes [highByte (tableWord nbits w), lowByte (tableWord nbits w)] with
    | .ok (i, _) => some i
    | .error _ => none
  else none

/-! ### Encoding -/

/-- R69, column "encodes as"; the catch-all row is written with `.word`. -/
def encode : Instr → Word
  | .halt => 0x0000#16
  | .ret => 0x00EE#16
  | .call nnn => 0x2000#16 ||| nnn.setWidth 16
  | .add x y => 0x8004#16 ||| (BitVec.ofNat 16 x.val <<< 8) ||| (BitVec.ofNat 16 y.val <<< 4)
  | .unimplemented w => w

/-- R42, R60: the two bytes of an instruction in memory. -/
def encodeBytes (i : Instr) : List Byte := [highByte (encode i), lowByte (encode i)]

end Sys2Proof
end

