-- ==== Sys2Proof/Machine/Memory.lean ====
section
/-! DEFINITION. Sys2Proof/Machine/Memory.lean: Addressable Memory (20_memory.md R40) as a list of
(address, byte) pairs in one canonical form: addresses strictly rising and below `MEM_SIZE`, no entry
equal to the reset content 0 (10_state.md R35), which is what an unlisted address reads as (the list is a
DESIGN CHOICE, log 6). -/

namespace Sys2Proof.Machine

/-- The memory of one instance. -/
abbrev Memory := List Host.Cell

/-- What an address that is not listed reads as: R35, `mem[a]` is `0x00` after construction. -/
def resetByte : Byte := 0x00#8

/-- The canonical form from address `lo` up. -/
def Memory.wfFrom (lo : Nat) : Memory → Bool
  | [] => true
  | (a, b) :: m =>
    decide (lo ≤ a) && decide (a < Config.MEM_SIZE) && b != resetByte && Memory.wfFrom (a + 1) m

/-- The canonical form. -/
def Memory.wf (m : Memory) : Bool := Memory.wfFrom 0 m

/-- `mem[a]` (R40). Applied only to `a < MEM_SIZE`: every caller checks its address first (R46). -/
def Memory.read (m : Memory) (a : Nat) : Byte :=
  match m with
  | [] => resetByte
  | (a', b) :: m' => if a = a' then b else Memory.read m' a

/-- `mem[a] <- b` (R44), keeping the canonical form. -/
def Memory.write (m : Memory) (a : Nat) (b : Byte) : Memory :=
  match m with
  | [] => if b = resetByte then [] else [(a, b)]
  | (a', b') :: m' =>
    if a < a' then (if b = resetByte then (a', b') :: m' else (a, b) :: (a', b') :: m')
    else if a = a' then (if b = resetByte then m' else (a, b) :: m')
    else (a', b') :: Memory.write m' a b

/-- `MemRead16(a) = mem[a] ++ mem[a + 1]` (R43), for `a <= MEM_SIZE - 2`. -/
def Memory.read16 (m : Memory) (a : Nat) : Word := wordOfBytes (m.read a) (m.read (a + 1))

/-- `MemWrite16(a, w)` (R44), for `a <= MEM_SIZE - 2`: the high byte at `a`, then the low byte at `a + 1`. -/
def Memory.write16 (m : Memory) (a : Nat) (w : Word) : Memory :=
  (m.write a (highByte w)).write (a + 1) (lowByte w)

end Sys2Proof.Machine
end

