-- ==== Sys2Proof/Machine/State.lean ====
section
/-! DEFINITION. Sys2Proof/Machine/State.lean: the state of one instance, "exactly this tuple, and nothing
else" (10_state.md R20), its reset (R35), and the reasons a step can stop. -/

namespace Sys2Proof.Machine

/-- The fatal conditions of 60_exceptions.md R132, with the information each records. An iteration that
raises one goes to a NEXT state whose status is `faulted f` (R133); `step` answers the fault itself in
every later step of that instance, where no iteration happens any more (R136). -/
inductive Fault where
  /-- Raised by CALL at `sp = 16` (R90). Safe: the spec's own condition, and nothing runs after it. -/
  | stackOverflow
  /-- Raised by RET at `sp = 0` (R91). Safe: as above. -/
  | stackUnderflow
  /-- Raised by dispatch for a word that matches no pattern (R66, R85). Safe: as above. -/
  | unimplementedOpcode (opcode : Word)
  /-- Raised by the fetch check for a counter above 4094 (R81). Safe: the original's out-of-range access
  is "undefined/trapping behavior" (decision D2). -/
  | fetchOutOfBounds (pc : Word)
  /-- Raised by the fetch check for an odd counter (R81). Safe: the original may go on (decision D2). -/
  | fetchMisaligned (pc : Word)
deriving DecidableEq, Repr

/-- Refusals: what the model does not give a meaning. -/
inductive Refusal where
  /-- The instruction of this mnemonic has no meaning yet; raised by `exec` only (no arm of this model
  answers it). Safe: nothing is claimed of a refused instruction. -/
  | notModelled (mnemonic : String)
deriving DecidableEq, Repr

/-- The run status (R30): the loop's *Running* and *Halted*, and the sticky `Faulted(f)` (R31). -/
inductive Status where
  | halted
  | running
  | faulted (f : Fault)
deriving DecidableEq, Repr

/-- The complete state (R20). -/
structure State where
  /-- Addressable Memory (R40). -/
  mem : Memory
  /-- The general registers V0 .. VF (R21), VF the carry flag (R22, R32). -/
  V : Vector Byte Config.NREGS
  /-- The program counter (R24). -/
  pc : Word
  /-- The call stack entries (R27). -/
  stack : Vector Word Config.STACK_DEPTH
  /-- The stack pointer, the number of entries in use, 0 .. 16 by its type (R28; DESIGN CHOICE, log 9). -/
  sp : Fin (Config.STACK_DEPTH + 1)
  /-- The run status (R30). -/
  status : Status
deriving DecidableEq, Repr

/-- The state after construction, the only reset (R35, 70_reset_and_hazards.md R150). -/
def State.reset : State where
  mem := []
  V := Vector.replicate Config.NREGS 0x00#8
  pc := 0x0000#16
  stack := Vector.replicate Config.STACK_DEPTH 0x0000#16
  sp := 0
  status := .halted

end Sys2Proof.Machine
end

