-- ==== Sys2Proof/Machine/Operands.lean ====
section
/-! DEFINITION. Sys2Proof/Machine/Operands.lean: every operand form of the instruction set
(30_encoding.md R62): a register named by a 4-bit index, and a 12-bit address. -/

namespace Sys2Proof.Machine

/-- `V[i]` (10_state.md R21): every register is an ordinary one, VF among them (R22). -/
def State.readReg (s : State) (i : RegIdx) : Byte := s.V.get i

/-- `V[i] <- v` (R21). -/
def State.writeReg (s : State) (i : RegIdx) (v : Byte) : State :=
  { s with V := s.V.set i.val v i.isLt }

/-- R62: `nnn` is zero-extended to the program counter; it is not scaled, shifted or sign-extended. -/
def addressOperand (nnn : Addr) : Word := nnn.setWidth 16

end Sys2Proof.Machine
end

