-- ==== Sys2Proof/Machine/Flags.lean ====
section
/-! DEFINITION. Sys2Proof/Machine/Flags.lean: the one flag, VF (10_state.md R32), and the unsigned 8-bit
sum it is computed from (42_arithmetic.md R100, R102). -/

namespace Sys2Proof.Machine

/-- The index of VF, `FLAG` = 15 (00_scope.md R6). -/
def flagIdx : RegIdx := ⟨Config.FLAG, by decide⟩

/-- R100: `s <- a + b`, unbounded, 0 .. 510. -/
def exactSum (a b : Byte) : Nat := a.toNat + b.toNat

/-- R100: `s mod 256`, the 8-bit wrapping sum. -/
def wrappingSum (a b : Byte) : Byte := BitVec.ofNat 8 (exactSum a b % 2 ^ Config.REG_BITS)

/-- R100: 1 if the exact sum exceeds the 8-bit range, else 0. -/
def carryFlag (a b : Byte) : Byte :=
  if exactSum a b > 2 ^ Config.REG_BITS - 1 then 0x01#8 else 0x00#8

/-- `V[FLAG] <- v`. -/
def State.writeFlag (s : State) (v : Byte) : State := s.writeReg flagIdx v

end Sys2Proof.Machine
end

