-- ==== Sys2Proof/Machine/Ops.lean ====
section
/-! DEFINITION. Sys2Proof/Machine/Ops.lean: the named operations the instructions and the loop share:
the program counter, the status, the call stack, the fetch, and raising a fatal condition. -/

namespace Sys2Proof.Machine

/-- `pc <- t`. -/
def State.setPc (s : State) (t : Word) : State := { s with pc := t }

/-- `status <- u`. -/
def State.setStatus (s : State) (u : Status) : State := { s with status := u }

/-- `mem` replaced as a whole, by a host word write. -/
def State.setMem (s : State) (m : Memory) : State := { s with mem := m }

/-! ### Fatal conditions (60_exceptions.md R133) -/

/-- `raise f`: the run ends at once, `status <- Faulted(f)`, and nothing else is written. There is no
handler, no vector, no saved state, and no return from a fatal condition (R136). -/
def raise (f : Fault) (s : State) : Host.Outcome State Fault Refusal :=
  .next (s.setStatus (.faulted f))

/-- The normal end of a run (41_control_transfer.md R92): `status <- Halted`. -/
def endRun (s : State) : Host.Outcome State Fault Refusal := .next (s.setStatus .halted)

/-! ### The call stack (41_control_transfer.md R90, R91) -/

/-- `Push(v)` (R90): the check precedes every write. -/
def push (v : Word) (s : State) : Except Fault State :=
  if h : s.sp.val = Config.STACK_DEPTH then .error .stackOverflow
  else
    .ok { s with
      stack := s.stack.set s.sp.val v (by have := s.sp.isLt; omega)
      sp := ⟨s.sp.val + 1, by have := s.sp.isLt; omega⟩ }

/-- `Pop()` (R91): the check precedes every write; the entry is left in place (10_state.md R29,
which lets a model keep it or not: DESIGN CHOICE, log 13). -/
def pop (s : State) : Except Fault (Word × State) :=
  if h : s.sp.val = 0 then .error .stackUnderflow
  else
    .ok (s.stack[s.sp.val - 1]'(by have := s.sp.isLt; omega),
      { s with sp := ⟨s.sp.val - 1, by have := s.sp.isLt; omega⟩ })

/-! ### The fetch (40_fetch_decode_execute.md R81 to R83) -/

/-- R81: the fetch check, the bound first, then the alignment. At `pc = 0xFFF` both hold and the bound wins
(DEDUCED, log 7: R94 and vector C7 name the other fault there). -/
def fetchFault (s : State) : Option Fault :=
  if s.pc.toNat > Config.LAST_WORD then some (.fetchOutOfBounds s.pc)
  else if s.pc.toNat % 2 = 1 then some (.fetchMisaligned s.pc)
  else none

/-- R82: the word at the program counter. -/
def fetchWord (s : State) : Word := s.mem.read16 s.pc.toNat

/-- R83: `pc <- pc + 2`, before dispatch, for every fetched word. -/
def advance (s : State) : State := s.setPc (s.pc + 2#16)

end Sys2Proof.Machine
end

