-- ==== Sys2Proof/Machine/Arithmetic.lean ====
section
/-! DEFINITION. Sys2Proof/Machine/Arithmetic.lean: ADD (42_arithmetic.md). -/

namespace Sys2Proof.Machine

/-- ADD `Vx, Vy` (R100): both operands are read before any write; `V[x]` is written first and VF second
(decision D5), so with `x = 15` VF ends holding the carry (R101). -/
def execAdd (x y : RegIdx) (s : State) : Host.Outcome State Fault Refusal :=
  let a := s.readReg x
  let b := s.readReg y
  .next ((s.writeReg x (wrappingSum a b)).writeFlag (carryFlag a b))

end Sys2Proof.Machine
end

