-- ==== Sys2Proof/Machine/ControlTransfer.lean ====
section
/-! DEFINITION. Sys2Proof/Machine/ControlTransfer.lean: HALT, RET and CALL (41_control_transfer.md). A
meaning runs after the fetch check, the fetch and the advance, so `pc` already holds `A + 2`. -/

namespace Sys2Proof.Machine

/-- HALT (R92): the run ends; only the status changes. -/
def execHalt (s : State) : Host.Outcome State Fault Refusal := endRun s

/-- RET (R93): `pc <- Pop()`; an empty stack raises `StackUnderflow`. -/
def execRet (s : State) : Host.Outcome State Fault Refusal :=
  match pop s with
  | .error f => raise f s
  | .ok (t, s') => .next (s'.setPc t)

/-- CALL (R94): `Push(pc)`, then `pc <- zext_16(nnn)`; a full stack raises `StackOverflow`. The target
is not checked here (decision D3). -/
def execCall (nnn : Addr) (s : State) : Host.Outcome State Fault Refusal :=
  match push s.pc s with
  | .error f => raise f s
  | .ok s' => .next (s'.setPc (addressOperand nnn))

end Sys2Proof.Machine
end

