-- ==== Sys2Proof/Machine/Unimplemented.lean ====
section
/-! DEFINITION. Sys2Proof/Machine/Unimplemented.lean: the catch-all row of the dispatch table
(30_encoding.md R66). -/

namespace Sys2Proof.Machine

/-- R66: executing any other word raises `UnimplementedOpcode(opcode = w)`, after the advance. -/
def execUnimplemented (w : Word) (s : State) : Host.Outcome State Fault Refusal :=
  raise (.unimplementedOpcode w) s

end Sys2Proof.Machine
end

