-- ==== Sys2Proof/Machine/Dispatch.lean ====
section
/-! DEFINITION. Sys2Proof/Machine/Dispatch.lean: dispatch to the handlers (40_fetch_decode_execute.md R85). -/

namespace Sys2Proof.Machine

/-- One handler for each row of the dispatch table. -/
def exec (i : Instr) (s : State) : Host.Outcome State Fault Refusal :=
  match i with
  | .halt => Sys2Proof.Machine.execHalt s
  | .ret => Sys2Proof.Machine.execRet s
  | .call nnn => Sys2Proof.Machine.execCall nnn s
  | .add x y => Sys2Proof.Machine.execAdd x y s
  | .unimplemented w => Sys2Proof.Machine.execUnimplemented w s

end Sys2Proof.Machine
end

