-- ==== Sys2Proof/Machine/Iteration.lean ====
section
/-! DEFINITION. Sys2Proof/Machine/Iteration.lean: one iteration of the fetch/decode/dispatch loop
(40_fetch_decode_execute.md R81 to R86). -/

namespace Sys2Proof.Machine

/-- Check (R81), fetch (R82), advance (R83), decode (R84), dispatch (R85). -/
def iteration (s : State) : Host.Outcome State Fault Refusal :=
  match fetchFault s with
  | some f => raise f s
  | none => exec (decodeWord (fetchWord s)) (advance s)

end Sys2Proof.Machine
end

