-- ==== Sys2Proof/Machine/Step.lean ====
section
/-! DEFINITION. Sys2Proof/Machine/Step.lean: one step of the core. A step is one iteration of a run
(70_reset_and_hazards.md R157); outside a run the core does nothing of its own. -/

namespace Sys2Proof.Machine

/-- One step, by status (10_state.md R30). Running: one iteration. Halted: the idle state, left only by
the host's `run` (60_exceptions.md R143), so the step changes nothing (DESIGN CHOICE, log 1). Faulted:
no iteration happens any more (R136), and the step answers the fault (DESIGN CHOICE, log 2). -/
def step (s : State) : Host.Outcome State Fault Refusal :=
  match s.status with
  | .running => iteration s
  | .halted => .next s
  | .faulted f => .fault f

/-- Where the next fetch reads: `pc`, or the reset entry point 0 where `pc` could not be fetched from. -/
def State.fetchPlace (s : State) : Word :=
  match fetchFault s with
  | some _ => 0x0000#16
  | none => s.pc

/-- `s` inside a run, with the word stored where `step` fetches next: what the host's `write_instruction`
and `run` do together (45_host_interface.md R116, R118; DESIGN CHOICE, log 3). -/
def State.withFetchWord (s : State) (nbits w : Nat) : State :=
  { s with
    mem := s.mem.write16 s.fetchPlace.toNat (tableWord nbits w)
    pc := s.fetchPlace
    status := .running }

end Sys2Proof.Machine
end

