-- ==== Sys2Proof/Machine/Assembler.lean ====
section
/-! DEFINITION. Sys2Proof/Machine/Assembler.lean: the assembly lines of 30_encoding.md R69, first as
data, then as text. Each line is exactly one word (R70). -/

namespace Sys2Proof.Machine

/-- A line of R69. Operands are as written, so that one out of range can be written down and rejected. -/
inductive AsmLine where
  | halt
  | ret
  | call (addr : Nat)
  | add (x y : Nat)
  | word (w : Nat)
deriving DecidableEq, Repr

/-- R69, column "encodes as"; it rejects an address above `0xFFF`, a register number above 15, and a
`.word` that is no 16-bit word. -/
def assemble : AsmLine → Option Word
  | .halt => some 0x0000#16
  | .ret => some 0x00EE#16
  | .call addr => if addr ≤ 0xFFF then some (0x2000#16 ||| BitVec.ofNat 16 addr) else none
  | .add x y =>
    if x < Config.NREGS ∧ y < Config.NREGS then
      some (0x8004#16 ||| (BitVec.ofNat 16 x <<< 8) ||| (BitVec.ofNat 16 y <<< 4))
    else none
  | .word w => if w < 2 ^ Config.WORD_BITS then some (BitVec.ofNat 16 w) else none

/-! ### Text (what R69 leaves open of it is a DESIGN CHOICE, log 5) -/

/-- A token in hand is kept when it is not empty. -/
def flushToken (cur : List Char) : List (List Char) := if cur.isEmpty then [] else [cur]

/-- Blanks separate tokens; a comma is a token of its own. -/
def asmTokens (cur : List Char) : List Char → List (List Char)
  | [] => flushToken cur
  | c :: cs =>
    if c = ' ' then flushToken cur ++ asmTokens [] cs
    else if c = ',' then flushToken cur ++ [','] :: asmTokens [] cs
    else asmTokens (cur ++ [c]) cs

/-- The value of `ch` where it is one of the `count` consecutive digits that start at `first`, which itself
stands for `value`. -/
def digitAmong (first : Char) (count value : Nat) (ch : Char) : Option Nat :=
  let place := ch.val.toNat
  let start := first.val.toNat
  if start ≤ place then
    if place - start < count then some (value + (place - start)) else none
  else none

/-- The value of one digit: 0 to 9, then ten to fifteen as `A` .. `F` (R69 writes registers `V0` .. `VF`), in
either case (log 5). -/
def asmDigit (ch : Char) : Option Nat :=
  [digitAmong '0' 10 0, digitAmong 'A' 6 10, digitAmong 'a' 6 10].findSome? fun among => among ch

/-- Digits in base `b`, the most significant first, onto the value `n` of those before them. -/
def digitsValue (b n : Nat) : List Char → Option Nat
  | [] => some n
  | c :: cs =>
    match asmDigit c with
    | some d => if d < b then digitsValue b (n * b + d) cs else none
    | none => none

/-- A number: `0x` and hexadecimal digits, or decimal digits; at least one digit. -/
def asmNumber : List Char → Option Nat
  | [] => none
  | ['0', 'x'] => none
  | '0' :: 'x' :: cs => digitsValue 16 0 cs
  | cs => digitsValue 10 0 cs

/-- A register: `V` and one hexadecimal digit. -/
def asmRegister : List Char → Option Nat
  | ['V', c] => asmDigit c
  | _ => none

/-- The two operands of `add`: `Vx, Vy`, or (the alias) two register numbers. -/
def asmAddOperands (a b : List Char) : Option (Nat × Nat) :=
  match asmRegister a, asmRegister b with
  | some x, some y => some (x, y)
  | none, none =>
    match asmNumber a, asmNumber b with
    | some x, some y => some (x, y)
    | _, _ => none
  | _, _ => none

/-- The operand of `.word`: `0x` and four hexadecimal digits. -/
def asmWord : List Char → Option Nat
  | ['0', 'x', a, b, c, d] => digitsValue 16 0 [a, b, c, d]
  | _ => none

/-- One line of tokens (R69, column "syntax"). -/
def parseTokens : List (List Char) → Option AsmLine
  | [m] =>
    if m = ['h', 'a', 'l', 't'] then some .halt
    else if m = ['r', 'e', 't'] ∨ m = ['r', 'e', 't', 'u', 'r', 'n'] then some .ret
    else none
  | [m, a] =>
    if m = ['c', 'a', 'l', 'l'] then (asmNumber a).map .call
    else if m = ['.', 'w', 'o', 'r', 'd'] then (asmWord a).map .word
    else none
  | [m, a, comma, b] =>
    if m = ['a', 'd', 'd'] ∧ comma = [','] then (asmAddOperands a b).map fun p => .add p.1 p.2
    else none
  | _ => none

/-- A line of text as a word, where R69 gives it one. -/
def assembleText (line : List Char) : Option Word := (parseTokens (asmTokens [] line)).bind assemble

end Sys2Proof.Machine
end

