-- ==== Sys2Proof/Machine/Run.lean ====
section
/-! DEFINITION. Sys2Proof/Machine/Run.lean: a whole run (40_fetch_decode_execute.md R80, R86, R88): the
host command `run`. -/

namespace Sys2Proof.Machine

/-- How a run ends (R88). -/
inductive RunResult where
  /-- Normal halt: `run` returns `Halted`. -/
  | halted
  /-- Fatal: `run` returns `Fatal(f)`. -/
  | fatal (f : Fault)
  /-- The loop has not ended within the iterations it was given. `run` gives it `Config.RUN_BOUND`, more
  than any run takes (R89); the reply exists only so that the loop is a total function (DESIGN CHOICE,
  log 4). -/
  | unfinished
deriving DecidableEq, Repr

/-- R80: `status <- Running`, the entry to a run. -/
def startRun (s : State) : State := s.setStatus .running

/-- R86: iterate while the status is `Running`, at most `n` times. -/
def runLoop : Nat → State → State
  | 0, s => s
  | n + 1, s =>
    match s.status with
    | .running =>
      match step s with
      | .next t => runLoop n t
      | .fault _ => s
      | .refused _ => s
    | .halted => s
    | .faulted _ => s

/-- `n` steps of the core, stopping at the first fault or refusal (Host.Core.run for this machine). -/
def steps : Nat → State → Host.Outcome State Fault Refusal
  | 0, s => .next s
  | n + 1, s =>
    match step s with
    | .next t => steps n t
    | .fault f => .fault f
    | .refused r => .refused r

/-- R88: the value `run` returns, read from the status the loop ended with. -/
def runResult (s : State) : RunResult :=
  match s.status with
  | .halted => .halted
  | .faulted f => .fatal f
  | .running => .unfinished

/-- `run()` (R80, 45_host_interface.md R118): a fault is sticky; otherwise the loop runs to its end. -/
def run (s : State) : State × RunResult :=
  match s.status with
  | .faulted f => (s, .fatal f)
  | .halted => (runLoop Config.RUN_BOUND (startRun s), runResult (runLoop Config.RUN_BOUND (startRun s)))
  | .running => (runLoop Config.RUN_BOUND (startRun s), runResult (runLoop Config.RUN_BOUND (startRun s)))

end Sys2Proof.Machine
end

