-- ==== Sys2Proof/Machine/HostInterface.lean ====
section
/-! DEFINITION. Sys2Proof/Machine/HostInterface.lean: the host's synchronous commands
(45_host_interface.md). Each is one atomic transition of the instance, with a reply. The host never issues
one while a run is in progress (R111), so a state whose status is `Running` is never given to one
(DESIGN CHOICE: they are functions beside `step`, log 10). -/

namespace Sys2Proof.Machine

/-- The recoverable errors (60_exceptions.md R131). -/
inductive HostError where
  | invalidRegister
  | invalidProgramCounter
  | invalidAddress
deriving DecidableEq, Repr

/-- The host commands on an instance (R110). Indices and addresses are natural numbers (R111). -/
inductive Command where
  | writeRegister (i : Nat) (v : Byte)
  | readRegister (i : Nat)
  | setProgramCounter (v : Nat)
  | readProgramCounter
  | writeInstruction (a : Nat) (w : Word)
  | readInstruction (a : Nat)
  | run
deriving DecidableEq, Repr

/-- What a command returns: `Ok`, `Ok(value)`, `Err(e)`, or the result of a run. -/
inductive Reply where
  | ok
  | register (v : Byte)
  | counter (v : Word)
  | word (w : Word)
  | error (e : HostError)
  | run (r : RunResult)
deriving DecidableEq, Repr

/-- R131: the numeric codes of the recoverable errors (`Ok` is 0). -/
def hostErrorCode : HostError → Nat
  | .invalidRegister => 1
  | .invalidProgramCounter => 2
  | .invalidAddress => 3

/-- R131: the numeric code of a set-up or observation command's reply; a run has codes of its own. -/
def replyCode : Reply → Option Nat
  | .ok => some 0
  | .register _ => some 0
  | .counter _ => some 0
  | .word _ => some 0
  | .error e => some (hostErrorCode e)
  | .run _ => none

/-- R132: the numeric codes of the fatal conditions. -/
def faultCode : Fault → Nat
  | .stackOverflow => 1
  | .stackUnderflow => 2
  | .unimplementedOpcode _ => 3
  | .fetchOutOfBounds _ => 4
  | .fetchMisaligned _ => 5

/-- R132: the numeric code of a run's result. -/
def runResultCode : RunResult → Option Nat
  | .halted => some 0
  | .fatal f => some (faultCode f)
  | .unfinished => none

/-- Construct (R119): a new instance in the reset state. -/
def construct : State := State.reset

/-- `write_register(i, v)` (R112). -/
def cmdWriteRegister (i : Nat) (v : Byte) (s : State) : State × Reply :=
  if h : i < Config.NREGS then (s.writeReg ⟨i, h⟩ v, .ok) else (s, .error .invalidRegister)

/-- `read_register(i)` (R113). -/
def cmdReadRegister (i : Nat) (s : State) : State × Reply :=
  if h : i < Config.NREGS then (s, .register (s.readReg ⟨i, h⟩)) else (s, .error .invalidRegister)

/-- `set_program_counter(v)` (R114). -/
def cmdSetProgramCounter (v : Nat) (s : State) : State × Reply :=
  if v ≥ Config.MEM_SIZE ∨ v % 2 = 1 then (s, .error .invalidProgramCounter)
  else (s.setPc (BitVec.ofNat 16 v), .ok)

/-- `read_program_counter()` (R115). -/
def cmdReadProgramCounter (s : State) : State × Reply := (s, .counter s.pc)

/-- `write_instruction(a, w)` (R116). -/
def cmdWriteInstruction (a : Nat) (w : Word) (s : State) : State × Reply :=
  if a > Config.LAST_WORD then (s, .error .invalidAddress)
  else (s.setMem (s.mem.write16 a w), .ok)

/-- `read_instruction(a)` (R117). -/
def cmdReadInstruction (a : Nat) (s : State) : State × Reply :=
  if a > Config.LAST_WORD then (s, .error .invalidAddress) else (s, .word (s.mem.read16 a))

/-- `run()` (R118). -/
def cmdRun (s : State) : State × Reply := ((run s).1, .run (run s).2)

/-- One host command (R110). -/
def hostCommand (c : Command) (s : State) : State × Reply :=
  match c with
  | .writeRegister i v => cmdWriteRegister i v s
  | .readRegister i => cmdReadRegister i s
  | .setProgramCounter v => cmdSetProgramCounter v s
  | .readProgramCounter => cmdReadProgramCounter s
  | .writeInstruction a w => cmdWriteInstruction a w s
  | .readInstruction a => cmdReadInstruction a s
  | .run => cmdRun s

end Sys2Proof.Machine
end

