-- ==== Sys2Proof/Machine/Instances.lean ====
section
/-! DEFINITION. Sys2Proof/Machine/Instances.lean: several independent instances
(45_host_interface.md R122, 60_exceptions.md R141): each is an owned state of its own. Commands
on different instances happen one after the other (DESIGN CHOICE, log 12). -/

namespace Sys2Proof.Machine

/-- The instances one host owns, in the order of their construction. -/
abbrev Instances := List State

/-- Construct one more instance (R119). -/
def constructInstance (all : Instances) : Instances := all ++ [construct]

/-- A command on instance `k`; there is no reply where no such instance exists. -/
def commandInstance (k : Nat) (c : Command) (all : Instances) : Instances × Option Reply :=
  match all[k]? with
  | none => (all, none)
  | some s => (all.set k (hostCommand c s).1, some (hostCommand c s).2)

end Sys2Proof.Machine
end

