-- ==== Sys2Proof/Safety.lean ====
section
/-! DEFINITION. Sys2Proof/Safety.lean: the terms the statements are written in: the states an instance
can reach, the invariant of those states, and when two states look alike to a program. -/

namespace Sys2Proof.Machine

/-- The states an instance can be in, seen at every host command and at every iteration inside a run
(00_scope.md R5, 45_host_interface.md R111: the host acts only outside a run). -/
inductive Reachable : State → Prop where
  | constructed : Reachable State.reset
  | commanded (c : Command) {s : State} (h : Reachable s) (idle : s.status ≠ .running) :
      Reachable (hostCommand c s).1
  | started {s : State} (h : Reachable s) (idle : s.status = .halted) : Reachable (startRun s)
  | stepped {s t : State} (h : Reachable s) (hs : step s = .next t) : Reachable t

/-- The invariant: memory is canonical; the counter never exceeds `MEM_SIZE` (10_state.md R26); an entry
in use is a return address, even and at most `MEM_SIZE` (41_control_transfer.md R93). -/
structure StateInv (s : State) : Prop where
  mem_wf : s.mem.wf = true
  pc_le : s.pc.toNat ≤ Config.MEM_SIZE
  entries : ∀ i : Fin Config.STACK_DEPTH, i.val < s.sp.val →
    (s.stack.get i).toNat % 2 = 0 ∧ (s.stack.get i).toNat ≤ Config.MEM_SIZE

/-- Two states that differ at most in the call stack entries not in use (10_state.md R29). -/
structure AgreeInUse (s t : State) : Prop where
  mem : s.mem = t.mem
  V : s.V = t.V
  pc : s.pc = t.pc
  sp : s.sp = t.sp
  status : s.status = t.status
  entries : ∀ i : Fin Config.STACK_DEPTH, i.val < s.sp.val → s.stack.get i = t.stack.get i

/-- Two states that differ at most in the general registers. -/
structure AgreeButRegisters (s t : State) : Prop where
  mem : s.mem = t.mem
  pc : s.pc = t.pc
  stack : s.stack = t.stack
  sp : s.sp = t.sp
  status : s.status = t.status

/-- Two states that differ at most in memory. -/
structure AgreeButMemory (s t : State) : Prop where
  V : s.V = t.V
  pc : s.pc = t.pc
  stack : s.stack = t.stack
  sp : s.sp = t.sp
  status : s.status = t.status

/-- Two outcomes of the same kind: next states related by `R`, or the same fault, or the same refusal. -/
def SameOutcome (R : State → State → Prop) :
    Host.Outcome State Fault Refusal → Host.Outcome State Fault Refusal → Prop
  | .next s, .next t => R s t
  | .fault f, .fault g => f = g
  | .refused f, .refused g => f = g
  | .next _, .fault _ => False
  | .next _, .refused _ => False
  | .fault _, .next _ => False
  | .fault _, .refused _ => False
  | .refused _, .next _ => False
  | .refused _, .fault _ => False

end Sys2Proof.Machine
end

