-- ==== Sys2Proof/Certificates/Slice0/Obligations.lean ====
section
/-! DEFINITION. Sys2Proof/Certificates/Slice0/Obligations.lean: the statements about the model, for the
provers. Each docstring names the rule of spec/ it formalises. "Fetchable" below means that the fetch check
of 40_fetch_decode_execute.md passes: the counter is even and at most 4094. -/

open Sys2Proof Sys2Proof.Machine

/-! ### Encoding (30_encoding.md) -/

/-- Decode and encode agree on every well-formed instruction, over words and over bytes (R60, R63, R69). -/
def Obligations.DecodingAnEncodedInstructionGivesItBack : Prop :=
  ∀ (i : Instr) (rest : List Byte), i.wellFormed = true →
    decodeWord (encode i) = i ∧ decodeBytes (encodeBytes i ++ rest) = .ok (i, rest)

/-- The other direction: every word decodes to a well-formed instruction that encodes to it (R63). -/
def Obligations.EveryWordIsTheEncodingOfWhatItDecodesTo : Prop :=
  ∀ w : Word, (decodeWord w).wellFormed = true ∧ encode (decodeWord w) = w

/-- R61: the five fields are the named bits of the word, and `nnn` overlaps `x`, `y` and `d`. -/
def Obligations.FieldsAreTheNamedBitsOfTheWord : Prop :=
  ∀ w : Word,
    (fieldC w).toNat = w.toNat / 2 ^ 12 ∧
    (fieldX w).toNat = w.toNat / 2 ^ 8 % 2 ^ 4 ∧
    (fieldY w).toNat = w.toNat / 2 ^ 4 % 2 ^ 4 ∧
    (fieldD w).toNat = w.toNat % 2 ^ 4 ∧
    (fieldNNN w).toNat = w.toNat % 2 ^ 12 ∧
    (fieldNNN w).toNat = (fieldX w).toNat * 2 ^ 8 + (fieldY w).toNat * 2 ^ 4 + (fieldD w).toNat

/-- R64: each row's mask and match, its condition on `(c,x,y,d)`, and what the decoder answers are the same
set of words; anything else is the catch-all row. -/
def Obligations.DispatchTableRowsSelectTheirInstruction : Prop :=
  ∀ w : Word,
    ((matchesHalt w = true ↔ fieldC w = 0x0 ∧ fieldX w = 0x0 ∧ fieldY w = 0x0 ∧ fieldD w = 0x0) ∧
      (matchesHalt w = true ↔ decodeWord w = .halt)) ∧
    ((matchesRet w = true ↔ fieldC w = 0x0 ∧ fieldX w = 0x0 ∧ fieldY w = 0xE ∧ fieldD w = 0xE) ∧
      (matchesRet w = true ↔ decodeWord w = .ret)) ∧
    ((matchesCall w = true ↔ fieldC w = 0x2) ∧
      (matchesCall w = true ↔ decodeWord w = .call (fieldNNN w))) ∧
    ((matchesAdd w = true ↔ fieldC w = 0x8 ∧ fieldD w = 0x4) ∧
      (matchesAdd w = true ↔ decodeWord w = .add (regIndex (fieldX w)) (regIndex (fieldY w)))) ∧
    (matchesNoRow w = true ↔ decodeWord w = .unimplemented w)

/-- The counts and the disjointness the spec infers in R65 from the dispatch table. -/
def Obligations.EncodingSpaceIsCountedAndDisjoint : Prop :=
  (∀ w : Word,
    ¬(matchesHalt w = true ∧ matchesRet w = true) ∧ ¬(matchesHalt w = true ∧ matchesCall w = true) ∧
    ¬(matchesHalt w = true ∧ matchesAdd w = true) ∧ ¬(matchesRet w = true ∧ matchesCall w = true) ∧
    ¬(matchesRet w = true ∧ matchesAdd w = true) ∧ ¬(matchesCall w = true ∧ matchesAdd w = true)) ∧
  (Finset.univ.filter fun w : Word => matchesHalt w = true).card = 1 ∧
  (Finset.univ.filter fun w : Word => matchesRet w = true).card = 1 ∧
  (Finset.univ.filter fun w : Word => matchesCall w = true).card = 4096 ∧
  (Finset.univ.filter fun w : Word => matchesAdd w = true).card = 256 ∧
  (Finset.univ.filter fun w : Word => matchesNoRow w = true).card = 61182

/-- Words of 95_test_vectors.md (E1 to E8, E11) and what they stand for. -/
def Obligations.WordsOfTheTestVectorsDecodeAsWritten : Prop :=
  decodeWord 0x0000 = .halt ∧ decodeWord 0x00EE = .ret ∧ decodeWord 0x2100 = .call 0x100 ∧
  decodeWord 0x2FFF = .call 0xFFF ∧ decodeWord 0x8014 = .add 0 1 ∧ decodeWord 0x8FF4 = .add 15 15 ∧
  decodeWord 0x00E0 = .unimplemented 0x00E0 ∧ decodeWord 0x01EE = .unimplemented 0x01EE ∧
  decodeWord 0x8015 = .unimplemented 0x8015

/-- R69: what each assembly line encodes as, which lines are rejected, and the table's own examples as
text. How the text is cut into tokens and numbers is the model's choice (log 5). -/
def Obligations.AssemblyLinesEncodeTheirInstruction : Prop :=
  (∃ w, assemble .halt = some w ∧ decodeWord w = .halt) ∧
  (∃ w, assemble .ret = some w ∧ decodeWord w = .ret) ∧
  (∀ a : Nat, a ≤ 0xFFF →
    ∃ w, assemble (.call a) = some w ∧ decodeWord w = .call (BitVec.ofNat 12 a)) ∧
  (∀ a : Nat, 0xFFF < a → assemble (.call a) = none) ∧
  (∀ x y : RegIdx, ∃ w, assemble (.add x.val y.val) = some w ∧ decodeWord w = .add x y) ∧
  (∀ x y : Nat, 15 < x ∨ 15 < y → assemble (.add x y) = none) ∧
  (∀ w : Word, assemble (.word w.toNat) = some w) ∧
  assembleText ['h', 'a', 'l', 't'] = some 0x0000 ∧
  assembleText ['r', 'e', 't'] = some 0x00EE ∧
  assembleText ['r', 'e', 't', 'u', 'r', 'n'] = some 0x00EE ∧
  assembleText ['c', 'a', 'l', 'l', ' ', '0', 'x', '1', '0', '0'] = some 0x2100 ∧
  assembleText ['a', 'd', 'd', ' ', 'V', '0', ',', ' ', 'V', '1'] = some 0x8014 ∧
  assembleText ['a', 'd', 'd', ' ', '0', ',', '1'] = some 0x8014

/-! ### Memory (20_memory.md) -/

/-- R43: the word read at `a` is `mem[a] ++ mem[a + 1]`, it depends on those two bytes alone, and it is
what `read_instruction` returns. -/
def Obligations.MemoryWordIsItsTwoBytesHighFirst : Prop :=
  ∀ (m : Memory) (a : Nat), a ≤ 4094 →
    (m.read16 a).toNat = (m.read a).toNat * 256 + (m.read (a + 1)).toNat ∧
    (∀ m' : Memory, m'.read a = m.read a → m'.read (a + 1) = m.read (a + 1) →
      m'.read16 a = m.read16 a) ∧
    (∀ s : State, s.mem = m → hostCommand (.readInstruction a) s = (s, .word (m.read16 a)))

/-- The round trip of R45 and, inferred there, what a write does to the words around it. -/
def Obligations.WordWriteThenReadGivesTheWordAndKeepsTheRest : Prop :=
  ∀ (m : Memory) (a : Nat) (w : Word), m.wf = true → a ≤ 4094 →
    (m.write16 a w).read16 a = w ∧
    (∀ b : Nat, b ≠ a → b ≠ a + 1 → (m.write16 a w).read b = m.read b) ∧
    (∀ b : Nat, b + 1 = a →
      (m.write16 a w).read16 b = wordOfBytes (highByte (m.read16 b)) (highByte w)) ∧
    (m.write16 a w).read16 (a + 1) = wordOfBytes (lowByte w) (lowByte (m.read16 (a + 1))) ∧
    (∀ b : Nat, b + 1 < a ∨ a + 1 < b → (m.write16 a w).read16 b = m.read16 b)

/-- Canonical memories that read the same everywhere are the same list (20_memory.md R40; the
representation is the model's choice, log 6). -/
def Obligations.CanonicalMemoriesThatReadTheSameAreEqual : Prop :=
  ∀ m m' : Memory, m.wf = true → m'.wf = true → (∀ a, m.read a = m'.read a) → m = m'

/-! ### The loop (40_fetch_decode_execute.md) -/

/-- R83: where the counter is fetchable, the step advances it by 2, without wrapping, for every fetched
word, and then is the meaning of the instruction that the two bytes at the counter decode to. -/
def Obligations.StepRunsTheDecodedInstructionAfterTheAdvance : Prop :=
  ∀ (s : State) (i : Instr), s.status = .running → s.pc.toNat ≤ 4094 → s.pc.toNat % 2 = 0 →
    decodeBytes [s.mem.read s.pc.toNat, s.mem.read (s.pc.toNat + 1)] = .ok (i, []) →
    i.wellFormed = true ∧
    step s = exec i { s with pc := s.pc + 2 } ∧
    (s.pc + 2).toNat = s.pc.toNat + 2 ∧ (s.pc + 2).toNat ≤ 4096

/-- R82: the word at the counter is the only memory access of an iteration: two states that differ in
memory only, and hold the same two bytes at the counter, step alike; no step writes memory; and the word
dispatched is `mem[pc] ++ mem[pc + 1]`. -/
def Obligations.AnIterationReadsOnlyTheFetchedWord : Prop :=
  (∀ s t : State, AgreeButMemory s t → s.mem.read s.pc.toNat = t.mem.read s.pc.toNat →
    s.mem.read (s.pc.toNat + 1) = t.mem.read (s.pc.toNat + 1) →
    SameOutcome AgreeButMemory (step s) (step t)) ∧
  (∀ s t : State, step s = .next t → t.mem = s.mem) ∧
  (∀ s : State, s.status = .running → s.pc.toNat ≤ 4094 → s.pc.toNat % 2 = 0 →
    step s = exec (decodeWord (wordOfBytes (s.mem.read s.pc.toNat) (s.mem.read (s.pc.toNat + 1))))
      { s with pc := s.pc + 2 })

/-- R81 without its inference about reachable states: the bound is checked before the alignment, and a
fetch fault changes nothing but the status. At `pc = 0xFFF` the bound wins (log 7: R94 and vector C7 name
the other fault). -/
def Obligations.FetchCheckComesFirstBoundBeforeAlignment : Prop :=
  ∀ s : State, s.status = .running →
    (s.pc.toNat > 4094 → step s = .next { s with status := .faulted (.fetchOutOfBounds s.pc) }) ∧
    (s.pc.toNat ≤ 4094 ∧ s.pc.toNat % 2 = 1 →
      step s = .next { s with status := .faulted (.fetchMisaligned s.pc) })

/-- R81 infers that a reachable state meets at most one of the two fetch conditions. That is false at one
counter, `0xFFF` (a CALL of it is reachable), and true at every other (log 7). -/
def Obligations.BothFetchConditionsMeetExactlyAtTheLastByte : Prop :=
  (∃ s : State, Reachable s ∧ s.status = .running ∧ s.pc.toNat > 4094 ∧ s.pc.toNat % 2 = 1) ∧
  (∀ s : State, Reachable s → s.pc.toNat > 4094 → s.pc.toNat % 2 = 1 → s.pc = 0xFFF)

/-- Outside a run the core does nothing of its own. R143 and R136 say that no iteration happens; that
`step` answers the idle state, or the fault, is the model's choice (logs 1 and 2). -/
def Obligations.OutsideARunNoIterationHappens : Prop :=
  ∀ s : State,
    (s.status = .halted → step s = .next s) ∧ (∀ f, s.status = .faulted f → step s = .fault f)

/-- Every meaning answers a next state in every state, and so does every step that is not of a faulted
instance. That this is how a step of the model answers is the model's choice and no rule of the spec: a halted
state steps to itself (DESIGN CHOICE, log 1), and a raise is a next state with the status Faulted(f) (DESIGN
CHOICE, log 2). What the spec says is that an iteration ends by completing, by HALT or by a fatal condition
(00_scope.md R10). -/
def Obligations.EveryMeaningAnswersANextState : Prop :=
  (∀ (i : Instr) (s : State), ∃ t, exec i s = .next t) ∧
  (∀ s : State, (∀ f, s.status ≠ .faulted f) → ∃ t, step s = .next t)

/-! ### The instructions (41_control_transfer.md, 42_arithmetic.md, 30_encoding.md) -/

/-- HALT: it changes the status alone; fetched at `A` it leaves `pc = A + 2`; a run that meets it returns
`Halted`. -/
def Obligations.HaltEndsTheRunChangingOnlyTheStatus : Prop :=
  (∀ s : State, exec .halt s = .next { s with status := .halted }) ∧
  (∀ s : State, s.status = .halted → s.pc.toNat ≤ 4094 → s.pc.toNat % 2 = 0 →
    s.mem.read16 s.pc.toNat = 0x0000 →
    run s = ({ s with pc := s.pc + 2 }, .halted))

/-- RET: with an entry in use it goes to the popped address, takes one entry out of use, and leaves
everything else; with none it raises `StackUnderflow`, changing the status alone. -/
def Obligations.RetPopsIntoTheCounter : Prop :=
  (∀ s : State, ∀ k : Fin Config.STACK_DEPTH, s.sp.val = k.val + 1 →
    ∃ t, exec .ret s = .next t ∧ t.pc = s.stack.get k ∧ t.sp.val = k.val ∧
      (∀ i, t.stack.get i = s.stack.get i) ∧ (∀ i, t.readReg i = s.readReg i) ∧
      (∀ a, t.mem.read a = s.mem.read a) ∧ t.status = s.status) ∧
  (∀ s : State, s.sp.val = 0 →
    exec .ret s = .next { s with status := .faulted .stackUnderflow })

/-- CALL: with a free entry it pushes the (advanced) counter into the next free entry and goes to `nnn`,
leaving everything else; with none it raises `StackOverflow`, changing the status alone. -/
def Obligations.CallPushesTheCounterAndGoesToItsAddress : Prop :=
  (∀ (s : State) (nnn : Addr) (k : Fin Config.STACK_DEPTH), s.sp.val = k.val →
    ∃ t, exec (.call nnn) s = .next t ∧ t.pc.toNat = nnn.toNat ∧ t.sp.val = k.val + 1 ∧
      t.stack.get k = s.pc ∧ (∀ i, i ≠ k → t.stack.get i = s.stack.get i) ∧
      (∀ i, t.readReg i = s.readReg i) ∧ (∀ a, t.mem.read a = s.mem.read a) ∧
      t.status = s.status) ∧
  (∀ (s : State) (nnn : Addr), s.sp.val = 16 →
    exec (.call nnn) s = .next { s with status := .faulted .stackOverflow })

/-- R100: ADD. `V[x]` takes the sum of the original operands modulo 256 and then VF the carry, so VF ends
with the carry for every `x`; nothing else changes. -/
def Obligations.AddGivesTheWrappedSumAndTheCarry : Prop :=
  (∀ x y : RegIdx,
    matchesAdd (0x8004 ||| (BitVec.ofNat 16 x.val <<< 8) ||| (BitVec.ofNat 16 y.val <<< 4)) = true ∧
    decodeWord (0x8004 ||| (BitVec.ofNat 16 x.val <<< 8) ||| (BitVec.ofNat 16 y.val <<< 4)) = .add x y) ∧
  (∀ (s : State) (x y : RegIdx), ∃ t, exec (.add x y) s = .next t ∧
    (x ≠ 15 → (t.readReg x).toNat = ((s.readReg x).toNat + (s.readReg y).toNat) % 256) ∧
    (t.readReg 15).toNat = (if (s.readReg x).toNat + (s.readReg y).toNat > 255 then 1 else 0) ∧
    (∀ i, i ≠ x → i ≠ 15 → t.readReg i = s.readReg i) ∧
    t.pc = s.pc ∧ t.sp = s.sp ∧ (∀ i, t.stack.get i = s.stack.get i) ∧
    (∀ a, t.mem.read a = s.mem.read a) ∧ t.status = s.status) ∧
  (∀ s : State, s.readReg 0 = 250 → s.readReg 1 = 10 →
    ∃ t, exec (.add 0 1) s = .next t ∧ t.readReg 0 = 4 ∧ t.readReg 15 = 1)

/-- The corner cases of R101, each an inference of the spec from R100 (those with `x = 15` rest on its
decision D5). -/
def Obligations.AddCornerCases : Prop :=
  ∀ (s : State) (x y : RegIdx), ∃ t, exec (.add x y) s = .next t ∧
    (x = y → (x ≠ 15 → (t.readReg x).toNat = 2 * (s.readReg x).toNat % 256) ∧
      (t.readReg 15).toNat = (if (s.readReg x).toNat ≥ 128 then 1 else 0)) ∧
    (y = 15 → x ≠ 15 → (t.readReg x).toNat = ((s.readReg x).toNat + (s.readReg 15).toNat) % 256) ∧
    (x = 15 →
      (t.readReg 15).toNat = (if (s.readReg 15).toNat + (s.readReg y).toNat > 255 then 1 else 0) ∧
      ∀ i, i ≠ 15 → t.readReg i = s.readReg i) ∧
    ((s.readReg x).toNat + (s.readReg y).toNat = 255 →
      (x ≠ 15 → t.readReg x = 255) ∧ t.readReg 15 = 0) ∧
    ((s.readReg x).toNat + (s.readReg y).toNat = 256 →
      (x ≠ 15 → t.readReg x = 0) ∧ t.readReg 15 = 1) ∧
    ((s.readReg x).toNat + (s.readReg y).toNat = 510 →
      (x ≠ 15 → t.readReg x = 254) ∧ t.readReg 15 = 1)

/-- The spec infers in R104 that ADD does not add the incoming VF. -/
def Obligations.AddDoesNotReadTheIncomingFlag : Prop :=
  ∀ (s : State) (x y : RegIdx) (v : Byte), x ≠ 15 → y ≠ 15 →
    exec (.add x y) (s.writeReg 15 v) = exec (.add x y) s

/-- R66: a word that matches no pattern raises `UnimplementedOpcode` with that word after the advance, and
changes nothing but the counter and the status; and these are such words: every `0x0nnn` but two, every
word of thirteen families, every `0x8xyd` with `d` not 4. -/
def Obligations.UnimplementedWordsAreFatalAfterTheAdvance : Prop :=
  (∀ (s : State) (w : Word), matchesNoRow w = true → s.status = .running → s.pc.toNat ≤ 4094 →
    s.pc.toNat % 2 = 0 → s.mem.read16 s.pc.toNat = w →
    step s = .next { s with pc := s.pc + 2, status := .faulted (.unimplementedOpcode w) }) ∧
  (∀ (s : State) (w : Word),
    exec (.unimplemented w) s = .next { s with status := .faulted (.unimplementedOpcode w) }) ∧
  (∀ w : Word, fieldC w = 0x0 → w ≠ 0x0000 → w ≠ 0x00EE → matchesNoRow w = true) ∧
  (∀ w : Word, fieldC w ≠ 0x0 → fieldC w ≠ 0x2 → fieldC w ≠ 0x8 → matchesNoRow w = true) ∧
  (∀ w : Word, fieldC w = 0x8 → fieldD w ≠ 0x4 → matchesNoRow w = true)

/-- The whole-machine frame (10_state.md R23, R26, R27, R28, 20_memory.md R41): what only ADD, only CALL,
only CALL and RET, and only the end of a run can change, and that nothing changes memory. -/
def Obligations.OnlyTheNamedInstructionsChangeEachComponent : Prop :=
  ∀ (i : Instr) (s t : State), exec i s = .next t →
    (∀ a, t.mem.read a = s.mem.read a) ∧
    ((∃ r, t.readReg r ≠ s.readReg r) → ∃ x y, i = .add x y) ∧
    ((∃ k, t.stack.get k ≠ s.stack.get k) → ∃ nnn, i = .call nnn) ∧
    (t.sp ≠ s.sp → i = .ret ∨ ∃ nnn, i = .call nnn) ∧
    (t.pc ≠ s.pc → i = .ret ∨ ∃ nnn, i = .call nnn) ∧
    (t.status ≠ s.status → t.V = s.V ∧ t.pc = s.pc ∧ t.stack = s.stack ∧ t.sp = s.sp ∧
      t.status ≠ .running)

/-- Control flow reads no general register (41_control_transfer.md R96, R89): two states that differ in
registers only step to such states. -/
def Obligations.RegistersDoNotSteerControl : Prop :=
  ∀ s t : State, AgreeButRegisters s t → SameOutcome AgreeButRegisters (step s) (step t)

/-- R95 for a RET that follows at once: the counter and the stack pointer are as the CALL's handler found
them. -/
def Obligations.CallThenReturnRestoresCounterAndPointer : Prop :=
  ∀ (s : State) (nnn : Addr), s.status = .running → s.pc.toNat ≤ 4094 → s.pc.toNat % 2 = 0 →
    s.sp.val < 16 → decodeWord (s.mem.read16 s.pc.toNat) = .call nnn →
    nnn.toNat ≤ 4094 → nnn.toNat % 2 = 0 → s.mem.read16 nnn.toNat = 0x00EE →
    ∃ t, steps 2 s = .next t ∧ t.pc = s.pc + 2 ∧ t.sp = s.sp ∧ t.V = s.V ∧
      t.mem = s.mem ∧ t.status = .running ∧
      ∀ i : Fin Config.STACK_DEPTH, i.val < s.sp.val → t.stack.get i = s.stack.get i

/-- R95 at whatever depth the callee reaches: while the stack pointer stays above its value before the
CALL, the entry is kept, and the step that brings it back there returns to the word after the CALL. -/
def Obligations.NestedCallsReturnToTheWordAfterTheCall : Prop :=
  ∀ (s s1 t : State) (nnn : Addr) (n : Nat), s.status = .running → s.pc.toNat ≤ 4094 →
    s.pc.toNat % 2 = 0 → s.sp.val < 16 → decodeWord (s.mem.read16 s.pc.toNat) = .call nnn →
    step s = .next s1 →
    (∀ m ≤ n, ∃ v, steps m s1 = .next v ∧ s.sp.val < v.sp.val) →
    steps (n + 1) s1 = .next t → t.sp = s.sp →
    t.pc = s.pc + 2 ∧
      ∀ i : Fin Config.STACK_DEPTH, i.val < s.sp.val → t.stack.get i = s.stack.get i

/-! ### Errors and fatal conditions (60_exceptions.md) -/

/-- Precision (R133, R134, with the inferred faulting address): a fetch fault changes the status alone; a
fault raised after dispatch changes the status and the advance alone. -/
def Obligations.FatalConditionsArePrecise : Prop :=
  ∀ (s t : State) (f : Fault), s.status = .running → step s = .next t → t.status = .faulted f →
    (((∃ p, f = .fetchOutOfBounds p) ∨ (∃ p, f = .fetchMisaligned p)) ∧
      t = { s with status := .faulted f }) ∨
    ((f = .stackOverflow ∨ f = .stackUnderflow ∨ ∃ w, f = .unimplementedOpcode w) ∧
      t = { s with pc := s.pc + 2, status := .faulted f } ∧ t.pc - 2 = s.pc)

/-- R132 with the priority of R135: the cause and the recorded information of each fatal condition, that
HALT alone ends a run normally, that nothing else ends one, and the numeric codes. Where both fetch
conditions hold the bound wins (log 7). -/
def Obligations.EachEndOfARunHasItsCause : Prop :=
  (∀ s t : State, s.status = .running → step s = .next t →
    (∀ p, t.status = .faulted (.fetchOutOfBounds p) ↔ s.pc.toNat > 4094 ∧ p = s.pc) ∧
    (∀ p, t.status = .faulted (.fetchMisaligned p) ↔
      s.pc.toNat ≤ 4094 ∧ s.pc.toNat % 2 = 1 ∧ p = s.pc) ∧
    (∀ w, t.status = .faulted (.unimplementedOpcode w) ↔ s.pc.toNat ≤ 4094 ∧ s.pc.toNat % 2 = 0 ∧
      w = s.mem.read16 s.pc.toNat ∧ matchesNoRow w = true) ∧
    (t.status = .faulted .stackOverflow ↔ s.pc.toNat ≤ 4094 ∧ s.pc.toNat % 2 = 0 ∧
      matchesCall (s.mem.read16 s.pc.toNat) = true ∧ s.sp.val = 16) ∧
    (t.status = .faulted .stackUnderflow ↔ s.pc.toNat ≤ 4094 ∧ s.pc.toNat % 2 = 0 ∧
      s.mem.read16 s.pc.toNat = 0x00EE ∧ s.sp.val = 0) ∧
    (t.status = .halted ↔ s.pc.toNat ≤ 4094 ∧ s.pc.toNat % 2 = 0 ∧
      s.mem.read16 s.pc.toNat = 0x0000)) ∧
  runResultCode .halted = some 0 ∧
  runResultCode (.fatal .stackOverflow) = some 1 ∧
  runResultCode (.fatal .stackUnderflow) = some 2 ∧
  (∀ w, runResultCode (.fatal (.unimplementedOpcode w)) = some 3) ∧
  (∀ p, runResultCode (.fatal (.fetchOutOfBounds p)) = some 4) ∧
  (∀ p, runResultCode (.fatal (.fetchMisaligned p)) = some 5)

/-- From 60_exceptions.md, "No handler, no return, no nesting": `Faulted(f)` is left by no host command, and a
later `run` returns `Fatal(f)` and changes nothing; only a new instance starts again. The clause that `step`
answers no next state in a faulted state is the model's way to say that no iteration happens (DESIGN CHOICE,
log 2), so the whole is derived and not stated by a rule. -/
def Obligations.AFaultIsStickyUntilANewInstance : Prop :=
  (∀ (s : State) (f : Fault), s.status = .faulted f →
    (∀ t, step s ≠ .next t) ∧ run s = (s, .fatal f) ∧
    ∀ c : Command, (hostCommand c s).1.status = .faulted f) ∧
  construct.status = .halted

/-- R131: which command returns each recoverable error and when, that the state is then unchanged, and the
numeric codes. -/
def Obligations.RecoverableErrorsHaveTheirCauseAndChangeNothing : Prop :=
  (∀ (c : Command) (s : State),
    ((hostCommand c s).2 = .error .invalidRegister ↔
      (∃ i v, c = .writeRegister i v ∧ i ≥ 16) ∨ (∃ i, c = .readRegister i ∧ i ≥ 16)) ∧
    ((hostCommand c s).2 = .error .invalidProgramCounter ↔
      ∃ v, c = .setProgramCounter v ∧ (v ≥ 4096 ∨ v % 2 = 1)) ∧
    ((hostCommand c s).2 = .error .invalidAddress ↔
      (∃ a w, c = .writeInstruction a w ∧ a > 4094) ∨ (∃ a, c = .readInstruction a ∧ a > 4094)) ∧
    (∀ e, (hostCommand c s).2 = .error e → (hostCommand c s).1 = s)) ∧
  replyCode .ok = some 0 ∧
  replyCode (.error .invalidRegister) = some 1 ∧
  replyCode (.error .invalidProgramCounter) = some 2 ∧
  replyCode (.error .invalidAddress) = some 3

/-! ### The host's commands (45_host_interface.md) -/

/-- R112 and R113: the register commands, out of range and in range (VF among the registers), what they
leave, the law that a read after a write gives the value, and the rules' own examples. -/
def Obligations.RegisterCommandsWriteAndReadOneRegister : Prop :=
  (∀ (s : State) (i : RegIdx) (v : Byte),
    ∃ t, hostCommand (.writeRegister i.val v) s = (t, .ok) ∧ t.readReg i = v ∧
      (∀ j, j ≠ i → t.readReg j = s.readReg j) ∧ t.mem = s.mem ∧ t.pc = s.pc ∧
      t.stack = s.stack ∧ t.sp = s.sp ∧ t.status = s.status ∧
      hostCommand (.readRegister i.val) t = (t, .register v)) ∧
  (∀ (s : State) (i : Nat) (v : Byte), i ≥ 16 →
    hostCommand (.writeRegister i v) s = (s, .error .invalidRegister) ∧
    hostCommand (.readRegister i) s = (s, .error .invalidRegister)) ∧
  (∀ (s : State) (i : RegIdx), hostCommand (.readRegister i.val) s = (s, .register (s.readReg i))) ∧
  (∀ s : State, hostCommand (.writeRegister 16 7) s = (s, .error .invalidRegister) ∧
    (hostCommand (.writeRegister 15 7) s).1.readReg 15 = 7)

/-- R114 and R115: the counter commands, what a set accepts and leaves, and that a successful set is
reflected by a read. -/
def Obligations.CounterCommandsAcceptEvenAddressesInMemory : Prop :=
  (∀ (s : State) (v : Nat), v < 4096 → v % 2 = 0 →
    ∃ t, hostCommand (.setProgramCounter v) s = (t, .ok) ∧ t.pc.toNat = v ∧ t.mem = s.mem ∧
      t.V = s.V ∧ t.stack = s.stack ∧ t.sp = s.sp ∧ t.status = s.status ∧
      hostCommand .readProgramCounter t = (t, .counter (BitVec.ofNat 16 v))) ∧
  (∀ (s : State) (v : Nat), v ≥ 4096 ∨ v % 2 = 1 →
    hostCommand (.setProgramCounter v) s = (s, .error .invalidProgramCounter)) ∧
  (∀ s : State, hostCommand .readProgramCounter s = (s, .counter s.pc))

/-- R44 and R116: `write_instruction` at any address up to 4094 writes exactly two bytes, the high one
first, and nothing else; above that it fails and changes nothing. -/
def Obligations.WriteInstructionWritesExactlyTwoBytes : Prop :=
  (∀ (s : State) (a : Nat) (w : Word), s.mem.wf = true → a ≤ 4094 →
    ∃ t, hostCommand (.writeInstruction a w) s = (t, .ok) ∧
      (t.mem.read a).toNat = w.toNat / 256 ∧ (t.mem.read (a + 1)).toNat = w.toNat % 256 ∧
      (∀ b, b ≠ a → b ≠ a + 1 → t.mem.read b = s.mem.read b) ∧
      t.V = s.V ∧ t.pc = s.pc ∧ t.stack = s.stack ∧ t.sp = s.sp ∧ t.status = s.status) ∧
  (∀ (s : State) (a : Nat) (w : Word), a > 4094 →
    hostCommand (.writeInstruction a w) s = (s, .error .invalidAddress)) ∧
  (∀ s : State, s.mem.wf = true →
    (hostCommand (.writeInstruction 0 0x2100) s).1.mem.read 0 = 0x21 ∧
    (hostCommand (.writeInstruction 0 0x2100) s).1.mem.read 1 = 0x00)

/-- `read_instruction`: R117 with the law of R45, and its example on a new instance. -/
def Obligations.ReadInstructionReturnsTheWordLastWritten : Prop :=
  (∀ (s : State) (a : Nat), a ≤ 4094 →
    hostCommand (.readInstruction a) s = (s, .word (s.mem.read16 a))) ∧
  (∀ (s : State) (a : Nat), a > 4094 →
    hostCommand (.readInstruction a) s = (s, .error .invalidAddress)) ∧
  (∀ (s : State) (a : Nat) (w : Word), s.mem.wf = true → a ≤ 4094 →
    (hostCommand (.readInstruction a) (hostCommand (.writeInstruction a w) s).1).2 = .word w) ∧
  (hostCommand (.readInstruction 0x100) construct).2 = .word 0x0000

/-- Separation of rights (R110, R111, 60_exceptions.md R138): no command but `run` changes the stack, the
stack pointer or the status; `run` changes no byte of memory. -/
def Obligations.OnlyRunChangesStackAndStatusAndItWritesNoMemory : Prop :=
  (∀ (c : Command) (s : State), c ≠ .run →
    (hostCommand c s).1.stack = s.stack ∧ (hostCommand c s).1.sp = s.sp ∧
    (hostCommand c s).1.status = s.status) ∧
  (∀ s : State, (hostCommand .run s).1.mem = s.mem)

/-- The spec infers in R152 that set-up commands may come in any order: those of different kinds, those on
different registers and those on disjoint words commute; where two words overlap, the later write wins for
each byte. -/
def Obligations.SetUpCommandsCommute : Prop :=
  (∀ (s : State) (i v : Nat) (b : Byte),
    (hostCommand (.setProgramCounter v) (hostCommand (.writeRegister i b) s).1).1 =
      (hostCommand (.writeRegister i b) (hostCommand (.setProgramCounter v) s).1).1) ∧
  (∀ (s : State) (i a : Nat) (b : Byte) (w : Word),
    (hostCommand (.writeInstruction a w) (hostCommand (.writeRegister i b) s).1).1 =
      (hostCommand (.writeRegister i b) (hostCommand (.writeInstruction a w) s).1).1) ∧
  (∀ (s : State) (v a : Nat) (w : Word),
    (hostCommand (.writeInstruction a w) (hostCommand (.setProgramCounter v) s).1).1 =
      (hostCommand (.setProgramCounter v) (hostCommand (.writeInstruction a w) s).1).1) ∧
  (∀ (s : State) (i j : Nat) (b c : Byte), i ≠ j →
    (hostCommand (.writeRegister i b) (hostCommand (.writeRegister j c) s).1).1 =
      (hostCommand (.writeRegister j c) (hostCommand (.writeRegister i b) s).1).1) ∧
  (∀ (s : State) (a a' : Nat) (w w' : Word), s.mem.wf = true → a + 1 < a' →
    (hostCommand (.writeInstruction a w) (hostCommand (.writeInstruction a' w') s).1).1 =
      (hostCommand (.writeInstruction a' w') (hostCommand (.writeInstruction a w) s).1).1) ∧
  (∀ (s : State) (a a' b : Nat) (w w' : Word), s.mem.wf = true → a ≤ 4094 → a' ≤ 4094 →
    (hostCommand (.writeInstruction a' w') (hostCommand (.writeInstruction a w) s).1).1.mem.read b =
      if b = a' then highByte w' else if b = a' + 1 then lowByte w'
      else if b = a then highByte w else if b = a + 1 then lowByte w else s.mem.read b)

/-- R122: a command on one instance leaves every other as it is and does to its own what the command does
to that instance alone; constructing one leaves those there. -/
def Obligations.InstancesAreIndependent : Prop :=
  (∀ (all : Instances) (k j : Nat) (c : Command), j ≠ k →
    (commandInstance k c all).1[j]? = all[j]?) ∧
  (∀ (all : Instances) (k : Nat) (c : Command) (s : State), all[k]? = some s →
    (commandInstance k c all).1[k]? = some (hostCommand c s).1 ∧
    (commandInstance k c all).2 = some (hostCommand c s).2) ∧
  (∀ (all : Instances) (k : Nat) (s : State), all[k]? = some s →
    (constructInstance all)[k]? = some s) ∧
  (∀ all : Instances, (constructInstance all)[all.length]? = some State.reset)

/-! ### Whole runs (40_fetch_decode_execute.md) -/

/-- A run ends in exactly one of the two ways of R88, with the status that goes with the value returned
(R118); that it always ends is the inference of R89. -/
def Obligations.EveryRunEndsHaltedOrFatal : Prop :=
  ∀ s : State,
    ((run s).2 = .halted ∧ (run s).1.status = .halted) ∨
    (∃ f, (run s).2 = .fatal f ∧ (run s).1.status = .faulted f)

/-- A run that is not turned away by an earlier fault is the iteration of `step`, from the state with the
status `Running`, up to the first state that is not running, in fewer than `2048 ^ 18` iterations (the bound
that R89 infers). -/
def Obligations.ARunIsItsIterationsAndTheyAreBounded : Prop :=
  ∀ s : State, (∀ f, s.status ≠ .faulted f) →
    ∃ n < 2048 ^ 18, steps n { s with status := .running } = .next (run s).1 ∧
      (run s).1.status ≠ .running ∧
      ∀ m < n, ∃ u, steps m { s with status := .running } = .next u ∧
        u.status = .running

/-- Call stack entries not in use are unobservable (10_state.md R29, R34): two states that differ in them
only step alike, and answer every host command alike, `run` among them. -/
def Obligations.StackEntriesNotInUseAreUnobservable : Prop :=
  ∀ s t : State, AgreeInUse s t →
    SameOutcome AgreeInUse (step s) (step t) ∧
    ∀ c : Command, (hostCommand c s).2 = (hostCommand c t).2 ∧
      AgreeInUse (hostCommand c s).1 (hostCommand c t).1

/-! ### Reset and the invariant (10_state.md, 70_reset_and_hazards.md) -/

/-- R35: the value of every component after construction, which is the only reset. -/
def Obligations.ResetZeroesEveryComponent : Prop :=
  construct = Sys2Proof.core.reset ∧
  (∀ a : Nat, a < 4096 → State.reset.mem.read a = 0x00) ∧
  (∀ i, State.reset.readReg i = 0x00) ∧
  State.reset.pc = 0x0000 ∧
  (∀ i, State.reset.stack.get i = 0x0000) ∧
  State.reset.sp.val = 0 ∧
  State.reset.status = .halted

/-- The spec infers in R153 that a run from reset, with nothing written, fetches `0x0000` at address 0 and
halts at once with the counter at 2. -/
def Obligations.ARunFromResetHaltsAtOnce : Prop :=
  run State.reset = ({ State.reset with pc := 0x0002 }, .halted)

/-- The invariant holds at reset. -/
def Obligations.TheResetStateMeetsTheInvariant : Prop := StateInv State.reset

/-- Every step keeps the invariant: memory stays canonical (and is not written), the counter never exceeds
4096 (R26), and every entry in use is an even address up to 4096 (R93 and R94 infer it). -/
def Obligations.EveryStepKeepsTheInvariant : Prop :=
  ∀ s t : State, StateInv s → step s = .next t → StateInv t

/-- Every host command keeps the invariant, `run` among them, so it holds of every reachable state. -/
def Obligations.EveryHostCommandKeepsTheInvariant : Prop :=
  (∀ (c : Command) (s : State), StateInv s → StateInv (hostCommand c s).1) ∧
  (∀ s : State, Reachable s → StateInv s)

/-- The word that `withFetchWord` places is the one the next step runs (the model's own load, log 3), from
every state of canonical memory. -/
def Obligations.ThePlacedWordIsTheOneTheNextStepRuns : Prop :=
  ∀ (s : State) (w : Word), s.mem.wf = true →
    ∃ i, decodeTableWord 16 w.toNat = some i ∧ i = decodeWord w ∧
      step (s.withFetchWord 16 w.toNat) =
        exec i ((s.withFetchWord 16 w.toNat).setPc (s.fetchPlace + 2))
end

