-- ==== Sys2Proof/Laws/Decode.lean ====
section
/-! SUPPORT. Sys2Proof/Laws/Decode.lean: what the decoder answers on each row of the dispatch table, and
the bytes of a word. -/

namespace Sys2Proof

/-- R43: the word of two bytes is `hi * 256 + lo`. -/
theorem wordOfBytes_toNat (hi lo : Byte) :
    (wordOfBytes hi lo).toNat = hi.toNat * 256 + lo.toNat := by
  show (hi ++ lo : BitVec (8 + 8)).toNat = _
  rw [BitVec.toNat_append, Nat.shiftLeft_eq, Nat.mul_comm,
    ← Nat.two_pow_add_eq_or_of_lt lo.isLt]

theorem highByte_toNat (w : Word) : (highByte w).toNat = w.toNat / 256 := by
  have := w.isLt
  simp only [highByte, BitVec.extractLsb'_toNat, Nat.shiftRight_eq_div_pow]
  omega

theorem lowByte_toNat (w : Word) : (lowByte w).toNat = w.toNat % 256 := by
  simp [lowByte, BitVec.extractLsb'_toNat]

/-- The two bytes of a word, put together again, are the word (R42). -/
@[simp] theorem wordOfBytes_bytes (w : Word) : wordOfBytes (highByte w) (lowByte w) = w := by
  apply BitVec.eq_of_toNat_eq
  rw [wordOfBytes_toNat, highByte_toNat, lowByte_toNat]
  omega

@[simp] theorem highByte_wordOfBytes (hi lo : Byte) : highByte (wordOfBytes hi lo) = hi := by
  apply BitVec.eq_of_toNat_eq
  rw [highByte_toNat, wordOfBytes_toNat]
  omega

@[simp] theorem lowByte_wordOfBytes (hi lo : Byte) : lowByte (wordOfBytes hi lo) = lo := by
  apply BitVec.eq_of_toNat_eq
  rw [lowByte_toNat, wordOfBytes_toNat]
  omega

/-- Decoding the two bytes of a word is decoding the word. -/
@[simp] theorem decodeBytes_word (w : Word) (rest : List Byte) :
    decodeBytes (highByte w :: lowByte w :: rest) = .ok (decodeWord w, rest) := by
  simp [decodeBytes]

/-- The one place that says what the decoder can answer (R85): each answer with the condition for it. -/
theorem decodeWord_cases (w : Word) :
    (w = 0x0000#16 ∧ decodeWord w = .halt) ∨
    (w = 0x00EE#16 ∧ decodeWord w = .ret) ∨
    (fieldC w = 0x2#4 ∧ decodeWord w = .call (fieldNNN w)) ∨
    (fieldC w = 0x8#4 ∧ fieldD w = 0x4#4 ∧
      decodeWord w = .add (regIndex (fieldX w)) (regIndex (fieldY w))) ∨
    (w ≠ 0x0000#16 ∧ w ≠ 0x00EE#16 ∧ fieldC w ≠ 0x2#4 ∧ ¬(fieldC w = 0x8#4 ∧ fieldD w = 0x4#4) ∧
      decodeWord w = .unimplemented w) := by
  unfold decodeWord
  split
  · simp_all
  · split
    · simp_all
    · split
      · simp_all
      · split <;> simp_all

/-- A table word of the table's 16 bits is decoded as that word. -/
theorem decodeTableWord_16 (w : Nat) : decodeTableWord 16 w = some (decodeWord (tableWord 16 w)) := by
  simp [decodeTableWord]

end Sys2Proof
end

