-- ==== Sys2Proof/Laws/State.lean ====
section
/-! SUPPORT. Sys2Proof/Laws/State.lean: the small lemmas of State and of the named parameters: what each
update does to each field, so that no later proof unfolds a record update. -/

namespace Sys2Proof

/-! ### The widths written out in Word.lean are those of R6 -/

theorem byte_width : Byte = BitVec Config.REG_BITS := rfl
theorem word_width : Word = BitVec Config.WORD_BITS := rfl
theorem counter_width : Word = BitVec Config.PC_BITS := rfl
theorem entry_width : Word = BitVec Config.STACK_BITS := rfl

namespace Machine

/-! ### setPc -/

@[simp] theorem setPc_mem (s : State) (t : Word) : (s.setPc t).mem = s.mem := rfl
@[simp] theorem setPc_V (s : State) (t : Word) : (s.setPc t).V = s.V := rfl
@[simp] theorem setPc_pc (s : State) (t : Word) : (s.setPc t).pc = t := rfl
@[simp] theorem setPc_stack (s : State) (t : Word) : (s.setPc t).stack = s.stack := rfl
@[simp] theorem setPc_sp (s : State) (t : Word) : (s.setPc t).sp = s.sp := rfl
@[simp] theorem setPc_status (s : State) (t : Word) : (s.setPc t).status = s.status := rfl

/-! ### setStatus -/

@[simp] theorem setStatus_mem (s : State) (u : Status) : (s.setStatus u).mem = s.mem := rfl
@[simp] theorem setStatus_V (s : State) (u : Status) : (s.setStatus u).V = s.V := rfl
@[simp] theorem setStatus_pc (s : State) (u : Status) : (s.setStatus u).pc = s.pc := rfl
@[simp] theorem setStatus_stack (s : State) (u : Status) : (s.setStatus u).stack = s.stack := rfl
@[simp] theorem setStatus_sp (s : State) (u : Status) : (s.setStatus u).sp = s.sp := rfl
@[simp] theorem setStatus_status (s : State) (u : Status) : (s.setStatus u).status = u := rfl

/-! ### setMem -/

@[simp] theorem setMem_mem (s : State) (m : Memory) : (s.setMem m).mem = m := rfl
@[simp] theorem setMem_V (s : State) (m : Memory) : (s.setMem m).V = s.V := rfl
@[simp] theorem setMem_pc (s : State) (m : Memory) : (s.setMem m).pc = s.pc := rfl
@[simp] theorem setMem_stack (s : State) (m : Memory) : (s.setMem m).stack = s.stack := rfl
@[simp] theorem setMem_sp (s : State) (m : Memory) : (s.setMem m).sp = s.sp := rfl
@[simp] theorem setMem_status (s : State) (m : Memory) : (s.setMem m).status = s.status := rfl

/-! ### writeReg -/

@[simp] theorem writeReg_mem (s : State) (i : RegIdx) (v : Byte) : (s.writeReg i v).mem = s.mem := rfl
@[simp] theorem writeReg_pc (s : State) (i : RegIdx) (v : Byte) : (s.writeReg i v).pc = s.pc := rfl
@[simp] theorem writeReg_stack (s : State) (i : RegIdx) (v : Byte) :
    (s.writeReg i v).stack = s.stack := rfl
@[simp] theorem writeReg_sp (s : State) (i : RegIdx) (v : Byte) : (s.writeReg i v).sp = s.sp := rfl
@[simp] theorem writeReg_status (s : State) (i : RegIdx) (v : Byte) :
    (s.writeReg i v).status = s.status := rfl

/-- Register i after a write of register j. -/
@[simp] theorem readReg_writeReg (s : State) (i j : RegIdx) (v : Byte) :
    (s.writeReg j v).readReg i = if j = i then v else s.readReg i := by
  simp [State.readReg, State.writeReg, Vector.get_eq_getElem, Vector.getElem_set, Fin.ext_iff]

@[simp] theorem writeFlag_eq (s : State) (v : Byte) : s.writeFlag v = s.writeReg flagIdx v := rfl

@[simp] theorem setPc_readReg (s : State) (t : Word) (i : RegIdx) :
    (s.setPc t).readReg i = s.readReg i := rfl
@[simp] theorem setStatus_readReg (s : State) (u : Status) (i : RegIdx) :
    (s.setStatus u).readReg i = s.readReg i := rfl
@[simp] theorem setMem_readReg (s : State) (m : Memory) (i : RegIdx) :
    (s.setMem m).readReg i = s.readReg i := rfl

/-- Two states with the same fields are the same state. -/
theorem state_ext {s t : State} (hm : s.mem = t.mem) (hV : s.V = t.V) (hp : s.pc = t.pc)
    (hk : s.stack = t.stack) (hs : s.sp = t.sp) (hu : s.status = t.status) : s = t := by
  cases s; cases t; simp_all

/-- Two register files that read the same are the same. -/
theorem registers_ext {s t : State} (h : ∀ i, s.readReg i = t.readReg i) : s.V = t.V := by
  apply Vector.ext
  intro i hi
  exact h ⟨i, hi⟩

end Machine
end Sys2Proof
end

