-- ==== Sys2Proof/Laws/Ops.lean ====
section
/-! SUPPORT. Sys2Proof/Laws/Ops.lean: for each shared operation, everything it can do, said once. -/

namespace Sys2Proof.Machine

@[simp] theorem raise_eq (f : Fault) (s : State) :
    raise f s = .next (s.setStatus (.faulted f)) := rfl

@[simp] theorem endRun_eq (s : State) : endRun s = .next (s.setStatus .halted) := rfl

@[simp] theorem advance_eq (s : State) : advance s = s.setPc (s.pc + 2#16) := rfl

/-- Everything `Push` can do (R90). -/
theorem push_cases (v : Word) (s : State) :
    (s.sp.val = Config.STACK_DEPTH ∧ push v s = .error .stackOverflow) ∨
    ∃ (h : s.sp.val < Config.STACK_DEPTH) (s' : State), push v s = .ok s' ∧
      s'.sp.val = s.sp.val + 1 ∧ s'.stack = s.stack.set s.sp.val v h ∧
      s'.mem = s.mem ∧ s'.V = s.V ∧ s'.pc = s.pc ∧ s'.status = s.status := by
  by_cases h : s.sp.val = Config.STACK_DEPTH
  · exact .inl ⟨h, by simp [push, h]⟩
  · have h' : s.sp.val < Config.STACK_DEPTH := by have := s.sp.isLt; omega
    exact .inr ⟨h', _, dif_neg h, rfl, rfl, rfl, rfl, rfl, rfl⟩

/-- Everything `Pop` can do (R91). -/
theorem pop_cases (s : State) :
    (s.sp.val = 0 ∧ pop s = .error .stackUnderflow) ∨
    ∃ (h : s.sp.val - 1 < Config.STACK_DEPTH) (s' : State), 0 < s.sp.val ∧
      pop s = .ok (s.stack[s.sp.val - 1], s') ∧
      s'.sp.val = s.sp.val - 1 ∧ s'.stack = s.stack ∧
      s'.mem = s.mem ∧ s'.V = s.V ∧ s'.pc = s.pc ∧ s'.status = s.status := by
  by_cases h : s.sp.val = 0
  · exact .inl ⟨h, by simp [pop, h]⟩
  · exact .inr ⟨by have := s.sp.isLt; omega, _, by omega, dif_neg h, rfl, rfl, rfl, rfl, rfl,
      rfl⟩

/-- Everything the fetch check can answer (R81), in its order. -/
theorem fetchFault_cases (s : State) :
    (s.pc.toNat > Config.LAST_WORD ∧ fetchFault s = some (.fetchOutOfBounds s.pc)) ∨
    (s.pc.toNat ≤ Config.LAST_WORD ∧ s.pc.toNat % 2 = 1 ∧
      fetchFault s = some (.fetchMisaligned s.pc)) ∨
    (s.pc.toNat ≤ Config.LAST_WORD ∧ s.pc.toNat % 2 = 0 ∧ fetchFault s = none) := by
  unfold fetchFault
  split
  · exact .inl ⟨‹_›, rfl⟩
  · split
    · exact .inr (.inl ⟨by omega, ‹_›, rfl⟩)
    · exact .inr (.inr ⟨by omega, by omega, rfl⟩)

end Sys2Proof.Machine
end

