-- ==== Sys2Proof/Laws/Instructions.lean ====
section
/-! SUPPORT. Sys2Proof/Laws/Instructions.lean: everything each instruction's meaning can do, said once. -/

namespace Sys2Proof.Machine

@[simp] theorem execHalt_eq (s : State) : execHalt s = .next (s.setStatus .halted) := rfl

@[simp] theorem execUnimplemented_eq (w : Word) (s : State) :
    execUnimplemented w s = .next (s.setStatus (.faulted (.unimplementedOpcode w))) := rfl

@[simp] theorem execAdd_eq (x y : RegIdx) (s : State) :
    execAdd x y s = .next ((s.writeReg x (wrappingSum (s.readReg x) (s.readReg y))).writeReg flagIdx
      (carryFlag (s.readReg x) (s.readReg y))) := rfl

/-- Everything CALL can do: overflow with nothing but the status changed, or a push and a jump. -/
theorem execCall_cases (nnn : Addr) (s : State) :
    (s.sp.val = Config.STACK_DEPTH ∧
      execCall nnn s = .next (s.setStatus (.faulted .stackOverflow))) ∨
    ∃ (h : s.sp.val < Config.STACK_DEPTH) (t : State), execCall nnn s = .next t ∧
      t.pc = addressOperand nnn ∧ t.sp.val = s.sp.val + 1 ∧
      t.stack = s.stack.set s.sp.val s.pc h ∧
      t.mem = s.mem ∧ t.V = s.V ∧ t.status = s.status := by
  rcases push_cases s.pc s with ⟨h, hp⟩ | ⟨h, s', hp, h1, h2, h3, h4, -, h6⟩
  · exact .inl ⟨h, by simp [execCall, hp]⟩
  · exact .inr ⟨h, s'.setPc (addressOperand nnn), by simp [execCall, hp], rfl, h1, h2, h3, h4, h6⟩

/-- Everything RET can do: underflow with nothing but the status changed, or a pop into the counter. -/
theorem execRet_cases (s : State) :
    (s.sp.val = 0 ∧ execRet s = .next (s.setStatus (.faulted .stackUnderflow))) ∨
    ∃ (h : s.sp.val - 1 < Config.STACK_DEPTH) (t : State), 0 < s.sp.val ∧ execRet s = .next t ∧
      t.pc = s.stack[s.sp.val - 1] ∧ t.sp.val = s.sp.val - 1 ∧ t.stack = s.stack ∧
      t.mem = s.mem ∧ t.V = s.V ∧ t.status = s.status := by
  rcases pop_cases s with ⟨h, hp⟩ | ⟨h, s', hpos, hp, h1, h2, h3, h4, -, h6⟩
  · exact .inl ⟨h, by simp [execRet, hp]⟩
  · exact .inr ⟨h, s'.setPc s.stack[s.sp.val - 1], hpos, by simp [execRet, hp], rfl, h1, h2, h3, h4, h6⟩

end Sys2Proof.Machine
end

