-- ==== Sys2Proof/Laws/Step.lean ====
section
/-! SUPPORT. Sys2Proof/Laws/Step.lean: everything an iteration and a step can do, said once. -/

namespace Sys2Proof.Machine

@[simp] theorem core_step : Sys2Proof.core.step = step := rfl
@[simp] theorem core_reset : Sys2Proof.core.reset = State.reset := rfl

/-- The inversion lemma of an iteration: a fetch fault, or the meaning of the decoded word. -/
theorem iteration_cases (s : State) :
    (∃ f, fetchFault s = some f ∧ iteration s = .next (s.setStatus (.faulted f))) ∨
    (fetchFault s = none ∧ iteration s = exec (decodeWord (fetchWord s)) (s.setPc (s.pc + 2#16))) := by
  unfold iteration
  cases h : fetchFault s with
  | some f => exact .inl ⟨f, rfl, rfl⟩
  | none => exact .inr ⟨rfl, rfl⟩

/-- The inversion lemma of a step, by status. -/
theorem step_cases (s : State) :
    (s.status = .running ∧ step s = iteration s) ∨
    (s.status = .halted ∧ step s = .next s) ∨
    (∃ f, s.status = .faulted f ∧ step s = .fault f) := by
  unfold step
  cases h : s.status with
  | running => exact .inl ⟨rfl, rfl⟩
  | halted => exact .inr (.inl ⟨rfl, rfl⟩)
  | faulted f => exact .inr (.inr ⟨f, rfl, rfl⟩)

/-- The advance does not wrap where the fetch check passed (R83). -/
theorem advance_toNat {s : State} (h : s.pc.toNat ≤ Config.LAST_WORD) :
    (s.pc + 2#16).toNat = s.pc.toNat + 2 := by
  simp only [Config.LAST_WORD, Config.MEM_SIZE] at h
  rw [BitVec.toNat_add, BitVec.toNat_ofNat]
  omega

/-- The inversion lemma of a step inside a run: every way it can go, with what it leaves (R81 to R94, R100). -/
theorem step_running_cases {s t : State} (hr : s.status = .running) (hs : step s = .next t) :
    (∃ f, fetchFault s = some f ∧ t = s.setStatus (.faulted f)) ∨
    (fetchFault s = none ∧
      ((decodeWord (fetchWord s) = .halt ∧ t = (s.setPc (s.pc + 2#16)).setStatus .halted) ∨
      (∃ w, decodeWord (fetchWord s) = .unimplemented w ∧
        t = (s.setPc (s.pc + 2#16)).setStatus (.faulted (.unimplementedOpcode w))) ∨
      (∃ x y, decodeWord (fetchWord s) = .add x y ∧
        t = ((s.setPc (s.pc + 2#16)).writeReg x (wrappingSum (s.readReg x) (s.readReg y))).writeReg
          flagIdx (carryFlag (s.readReg x) (s.readReg y))) ∨
      (decodeWord (fetchWord s) = .ret ∧ s.sp.val = 0 ∧
        t = (s.setPc (s.pc + 2#16)).setStatus (.faulted .stackUnderflow)) ∨
      (∃ h : s.sp.val - 1 < Config.STACK_DEPTH, decodeWord (fetchWord s) = .ret ∧ 0 < s.sp.val ∧
        t.pc = s.stack[s.sp.val - 1] ∧ t.sp.val = s.sp.val - 1 ∧ t.stack = s.stack ∧
        t.mem = s.mem ∧ t.V = s.V ∧ t.status = .running) ∨
      (∃ nnn, decodeWord (fetchWord s) = .call nnn ∧ s.sp.val = Config.STACK_DEPTH ∧
        t = (s.setPc (s.pc + 2#16)).setStatus (.faulted .stackOverflow)) ∨
      (∃ (nnn : Addr) (h : s.sp.val < Config.STACK_DEPTH), decodeWord (fetchWord s) = .call nnn ∧
        t.pc = addressOperand nnn ∧ t.sp.val = s.sp.val + 1 ∧
        t.stack = s.stack.set s.sp.val (s.pc + 2#16) h ∧
        t.mem = s.mem ∧ t.V = s.V ∧ t.status = .running))) := by
  have hstep : step s = iteration s := by simp only [step, hr]
  rw [hstep] at hs
  rcases iteration_cases s with ⟨f, hf, h⟩ | ⟨hf, h⟩
  · rw [h] at hs
    injection hs with hs
    exact .inl ⟨f, hf, hs.symm⟩
  · refine .inr ⟨hf, ?_⟩
    rw [h] at hs
    cases hd : decodeWord (fetchWord s) with
    | halt =>
      rw [hd] at hs
      injection hs with hs
      exact .inl ⟨rfl, hs.symm⟩
    | unimplemented w =>
      rw [hd] at hs
      injection hs with hs
      exact .inr (.inl ⟨w, rfl, hs.symm⟩)
    | add x y =>
      rw [hd] at hs
      injection hs with hs
      exact .inr (.inr (.inl ⟨x, y, rfl, hs.symm⟩))
    | ret =>
      rw [hd] at hs
      rcases execRet_cases (s.setPc (s.pc + 2#16)) with ⟨h0, he⟩ | ⟨hk, u, hp, he, h1, h2, h3, h4, h5, h6⟩
      · rw [show exec .ret _ = _ from he] at hs
        injection hs with hs
        exact .inr (.inr (.inr (.inl ⟨rfl, h0, hs.symm⟩)))
      · rw [show exec .ret _ = _ from he] at hs
        injection hs with hs
        subst hs
        exact .inr (.inr (.inr (.inr (.inl ⟨hk, rfl, hp, h1, h2, h3, h4, h5, h6.trans hr⟩))))
    | call nnn =>
      rw [hd] at hs
      rcases execCall_cases nnn (s.setPc (s.pc + 2#16)) with ⟨h0, he⟩ | ⟨hk, u, he, h1, h2, h3, h4, h5, h6⟩
      · rw [show exec (.call nnn) _ = _ from he] at hs
        injection hs with hs
        exact .inr (.inr (.inr (.inr (.inr (.inl ⟨nnn, rfl, h0, hs.symm⟩)))))
      · rw [show exec (.call nnn) _ = _ from he] at hs
        injection hs with hs
        subst hs
        exact .inr (.inr (.inr (.inr (.inr (.inr ⟨nnn, hk, rfl, h1, h2, h3, h4, h5, h6.trans hr⟩)))))

/-! ### Iterated steps -/

@[simp] theorem steps_zero (s : State) : steps 0 s = .next s := rfl

/-- One step, then the rest. -/
theorem steps_succ_next {s u : State} (h : step s = .next u) (k : Nat) :
    steps (k + 1) s = steps k u := by
  simp only [steps, h]

/-- A step that faults ends the steps. -/
theorem steps_succ_fault {s : State} {f : Fault} (h : step s = .fault f) (k : Nat) :
    steps (k + 1) s = .fault f := by
  simp only [steps, h]

/-- The host's own iteration of this machine is `steps`. -/
theorem core_run_eq_steps (k : Nat) (s : State) : Sys2Proof.core.run k s = steps k s := by
  induction k generalizing s with
  | zero => rfl
  | succ k ih =>
    unfold steps
    cases h : step s with
    | next u =>
      have h' : Sys2Proof.core.step s = .next u := h
      simp only [Host.Core.run, h']
      exact ih u
    | fault f =>
      have h' : Sys2Proof.core.step s = .fault f := h
      simp only [Host.Core.run, h']
      rfl
    | refused r =>
      have h' : Sys2Proof.core.step s = .refused r := h
      simp only [Host.Core.run, h']
      rfl

/-- The loop of a run takes a step while the status is Running (R86). -/
theorem runLoop_succ_running {s u : State} (hr : s.status = .running) (h : step s = .next u) (k : Nat) :
    runLoop (k + 1) s = runLoop k u := by
  simp only [runLoop, hr, h]

/-- The loop of a run stops where the status is not Running (R88). -/
theorem runLoop_ended {s : State} (hr : s.status ≠ .running) (k : Nat) : runLoop k s = s := by
  cases k with
  | zero => rfl
  | succ k => unfold runLoop; split <;> simp_all

/-- What every step keeps, the loop of a run keeps. -/
theorem runLoop_keeps {P : State → Prop} (hstep : ∀ s t, P s → step s = .next t → P t) (k : Nat) :
    ∀ s, P s → P (runLoop k s) := by
  induction k with
  | zero => exact fun _ h => h
  | succ k ih =>
    intro s h
    unfold runLoop
    split
    · split
      · exact ih _ (hstep _ _ h ‹_›)
      · exact h
      · exact h
    · exact h
    · exact h

end Sys2Proof.Machine
end

