-- ==== Sys2Proof/Laws/HostInterface.lean ====
section
/-! SUPPORT. Sys2Proof/Laws/HostInterface.lean: everything a run's entry and a host command can do to the
state, said once. -/

namespace Sys2Proof.Machine

/-- `run` turned away by a fault (R80). -/
theorem run_faulted {s : State} {f : Fault} (h : s.status = .faulted f) : run s = (s, .fatal f) := by
  simp only [run, h]

/-- `run` otherwise: the loop from the state with the status Running, and its result (R80, R88). -/
theorem run_unfaulted {s : State} (h : ∀ f, s.status ≠ .faulted f) :
    run s = (runLoop Config.RUN_BOUND (startRun s), runResult (runLoop Config.RUN_BOUND (startRun s))) := by
  unfold run
  split
  · exact absurd ‹_› (h _)
  · rfl
  · rfl

/-- Every way a host command can leave the state (R112 to R118): unchanged, one register written, the
counter set, one word written, or the end of a run. -/
theorem hostCommand_cases (c : Command) (s : State) :
    (hostCommand c s).1 = s ∨
    (∃ (i : RegIdx) (v : Byte), c = .writeRegister i.val v ∧ (hostCommand c s).1 = s.writeReg i v) ∨
    (∃ v, c = .setProgramCounter v ∧ v < Config.MEM_SIZE ∧ v % 2 = 0 ∧
      (hostCommand c s).1 = s.setPc (BitVec.ofNat 16 v)) ∨
    (∃ a w, c = .writeInstruction a w ∧ a ≤ Config.LAST_WORD ∧
      (hostCommand c s).1 = s.setMem (s.mem.write16 a w)) ∨
    (c = .run ∧ (hostCommand c s).1 = (run s).1) := by
  cases c with
  | writeRegister i v =>
    by_cases h : i < Config.NREGS
    · exact .inr (.inl ⟨⟨i, h⟩, v, rfl, by simp only [hostCommand, cmdWriteRegister, dif_pos h]⟩)
    · exact .inl (by simp only [hostCommand, cmdWriteRegister, dif_neg h])
  | readRegister i =>
    refine .inl ?_
    simp only [hostCommand, cmdReadRegister]
    split <;> rfl
  | setProgramCounter v =>
    by_cases h : v ≥ Config.MEM_SIZE ∨ v % 2 = 1
    · exact .inl (by simp only [hostCommand, cmdSetProgramCounter, if_pos h])
    · exact .inr (.inr (.inl ⟨v, rfl, by omega, by omega,
        by simp only [hostCommand, cmdSetProgramCounter, if_neg h]⟩))
  | readProgramCounter => exact .inl rfl
  | writeInstruction a w =>
    by_cases h : a > Config.LAST_WORD
    · exact .inl (by simp only [hostCommand, cmdWriteInstruction, if_pos h])
    · exact .inr (.inr (.inr (.inl ⟨a, w, rfl, by omega,
        by simp only [hostCommand, cmdWriteInstruction, if_neg h]⟩)))
  | readInstruction a =>
    refine .inl ?_
    simp only [hostCommand, cmdReadInstruction]
    split <;> rfl
  | run => exact .inr (.inr (.inr (.inr ⟨rfl, rfl⟩)))

end Sys2Proof.Machine
end

