-- ==== Sys2Proof/Laws/Memory.lean ====
section
/-! SUPPORT. Sys2Proof/Laws/Memory.lean: reading after writing, and that every memory operation keeps the
canonical form. -/

namespace Sys2Proof.Machine

@[simp] theorem read_nil (a : Nat) : Memory.read [] a = resetByte := rfl

theorem read_cons (a' : Nat) (b : Byte) (m : Memory) (a : Nat) :
    Memory.read ((a', b) :: m) a = if a = a' then b else Memory.read m a := rfl

/-- The canonical form, one cell at a time. -/
theorem wfFrom_cons {lo a : Nat} {b : Byte} {m : Memory} :
    Memory.wfFrom lo ((a, b) :: m) = true ↔
      lo ≤ a ∧ a < Config.MEM_SIZE ∧ b ≠ resetByte ∧ Memory.wfFrom (a + 1) m = true := by
  simp [Memory.wfFrom, and_assoc]

/-- A memory that is canonical from a higher address is canonical from a lower one. -/
theorem wfFrom_mono {lo lo' : Nat} (h : lo ≤ lo') {m : Memory} (hm : Memory.wfFrom lo' m = true) :
    Memory.wfFrom lo m = true := by
  cases m with
  | nil => rfl
  | cons c m =>
    obtain ⟨a, b⟩ := c
    rw [wfFrom_cons] at hm ⊢
    exact ⟨h.trans hm.1, hm.2⟩

/-- Below the first listed address nothing is listed. -/
theorem read_below {lo a : Nat} (h : a < lo) {m : Memory} (hm : Memory.wfFrom lo m = true) :
    Memory.read m a = resetByte := by
  induction m generalizing lo with
  | nil => rfl
  | cons c m ih =>
    obtain ⟨a', b⟩ := c
    obtain ⟨h1, -, -, h4⟩ := wfFrom_cons.mp hm
    rw [read_cons, if_neg (by omega)]
    exact ih (by omega) h4

/-- A write keeps the canonical form. -/
theorem write_wfFrom {lo a : Nat} (hlo : lo ≤ a) (ha : a < Config.MEM_SIZE) (b : Byte) {m : Memory}
    (hm : Memory.wfFrom lo m = true) : Memory.wfFrom lo (Memory.write m a b) = true := by
  induction m generalizing lo with
  | nil =>
    unfold Memory.write
    split
    · rfl
    · exact wfFrom_cons.mpr ⟨hlo, ha, ‹_›, rfl⟩
  | cons c m ih =>
    obtain ⟨a', b'⟩ := c
    obtain ⟨h1, h2, h3, h4⟩ := wfFrom_cons.mp hm
    unfold Memory.write
    split
    · split
      · exact hm
      · exact wfFrom_cons.mpr ⟨hlo, ha, ‹_›, wfFrom_cons.mpr ⟨by omega, h2, h3, h4⟩⟩
    · split
      · subst_vars
        split
        · exact wfFrom_mono (by omega) h4
        · exact wfFrom_cons.mpr ⟨hlo, ha, ‹_›, h4⟩
      · exact wfFrom_cons.mpr ⟨h1, h2, h3, ih (by omega) h4⟩

/-- Reading the address just written gives the byte written. -/
theorem read_write_self {lo : Nat} (a : Nat) (b : Byte) {m : Memory}
    (hm : Memory.wfFrom lo m = true) : Memory.read (Memory.write m a b) a = b := by
  induction m generalizing lo with
  | nil => unfold Memory.write; split <;> simp_all [read_cons]
  | cons c m ih =>
    obtain ⟨a', b'⟩ := c
    obtain ⟨-, -, -, h4⟩ := wfFrom_cons.mp hm
    unfold Memory.write
    split
    · split
      · rw [read_cons, if_neg (by omega), read_below (by omega) h4]; exact Eq.symm ‹_›
      · simp [read_cons]
    · split
      · subst_vars
        split
        · rw [read_below (Nat.lt_succ_self _) h4]; exact Eq.symm ‹_›
        · simp [read_cons]
      · rw [read_cons, if_neg ‹_›]; exact ih h4

/-- A write leaves every other address alone. -/
theorem read_write_other {a a' : Nat} (h : a' ≠ a) (b : Byte) (m : Memory) :
    Memory.read (Memory.write m a b) a' = Memory.read m a' := by
  induction m with
  | nil => unfold Memory.write; split <;> simp [read_cons, h]
  | cons c m ih =>
    obtain ⟨a0, b0⟩ := c
    unfold Memory.write
    split
    · split <;> simp [read_cons, h]
    · split
      · subst_vars; split <;> simp [read_cons, h]
      · simp only [read_cons, ih]

/-- A word write keeps the canonical form. -/
theorem write16_wf {a : Nat} (ha : a ≤ Config.LAST_WORD) (w : Word) {m : Memory}
    (hm : m.wf = true) : (m.write16 a w).wf = true := by
  have h2 : a + 1 < Config.MEM_SIZE := by simp only [Config.LAST_WORD, Config.MEM_SIZE] at *; omega
  exact write_wfFrom (Nat.zero_le _) h2 _ (write_wfFrom (Nat.zero_le _) (by omega) _ hm)

/-- Every byte after a word write. -/
theorem read_write16 (a a' : Nat) (w : Word) {m : Memory} (ha : a ≤ Config.LAST_WORD)
    (hm : m.wf = true) :
    (m.write16 a w).read a' =
      if a' = a then highByte w else if a' = a + 1 then lowByte w else m.read a' := by
  have h1 : Memory.wfFrom 0 (m.write a (highByte w)) = true :=
    write_wfFrom (Nat.zero_le _) (by simp only [Config.LAST_WORD, Config.MEM_SIZE] at *; omega) _ hm
  unfold Memory.write16
  by_cases h : a' = a + 1
  · subst h; simp [read_write_self _ _ h1]
  · rw [read_write_other h]
    by_cases h' : a' = a
    · subst h'; simp [read_write_self _ _ hm]
    · simp [h, h', read_write_other h']

end Sys2Proof.Machine
end

