-- ==== Sys2Proof/Laws/PerInstr.lean ====
section
/-! SUPPORT. Sys2Proof/Laws/PerInstr.lean: the per-instruction family MatchesTableRow: the encoded word of
a well-formed instruction matches the mask and match columns of its own row of 30_encoding.md R64, and
so its fields are those of the row. -/

namespace Sys2Proof.Laws.MatchesTableRow

/-- The row of R64 an instruction belongs to, as a check on a word. -/
def rowOf : Instr → Word → Bool
  | .halt => matchesHalt
  | .ret => matchesRet
  | .call _ => matchesCall
  | .add _ _ => matchesAdd
  | .unimplemented _ => matchesNoRow

/-- The encoded word of a well-formed instruction matches its row. -/
def Statement (i : Instr) : Prop := i.wellFormed = true → rowOf i (encode i) = true

theorem halt : Statement .halt := fun _ => by decide

theorem ret : Statement .ret := fun _ => by decide

theorem call (nnn : Addr) : Statement (.call nnn) := fun _ => by
  have h : (0x2000#16 ||| nnn.setWidth 16) &&& 0xF000#16 = 0x2000#16 := by
    apply BitVec.eq_of_getElem_eq
    intro i hi
    interval_cases i <;> simp [BitVec.getElem_setWidth, BitVec.getLsbD_of_ge]
  simpa [rowOf, matchesCall, encode] using h

theorem add (x y : RegIdx) : Statement (.add x y) := fun _ => by
  revert x y; decide

theorem unimplemented (w : Word) : Statement (.unimplemented w) := fun h => h

end Sys2Proof.Laws.MatchesTableRow
end

