-- ==== Sys2Proof/Tests/Slice0.lean ====
section
/-! SUPPORT. Sys2Proof/Tests/Slice0.lean: the model's own tests. Expected results are those of
95_test_vectors.md (named by their id) or the rules' own examples; where the spec's files differ, the test
says which it follows. The last part shows, for every statement with hypotheses, that they can be met. -/

namespace Sys2Proof.Tests
open Sys2Proof.Machine

/-! ### Helpers -/

/-- A running state with one word at the counter. -/
def at_ (pc w : Word) : State :=
  { State.reset with pc := pc, mem := Memory.write16 [] pc.toNat w, status := .running }

/-- The same with `n` entries in use, all `e`. -/
def withStack (s : State) (n : Fin 17) (e : Word) : State :=
  { s with stack := Vector.replicate 16 e, sp := n }

/-- A check on the state after one step; false where there is none. -/
def stepHas (s : State) (p : State → Bool) : Bool :=
  match step s with
  | .next t => p t
  | .fault _ => false
  | .refused _ => false

/-! ### Decoding (words written out from 30_encoding.md R64: c, x, y, d) -/

theorem test_decode_halt : decodeWord 0b0000_0000_0000_0000#16 = .halt := by decide            -- E1
theorem test_decode_ret : decodeWord 0b0000_0000_1110_1110#16 = .ret := by decide              -- E2
theorem test_decode_call : decodeWord 0b0010_0001_0000_0000#16 = .call 0x100 := by decide      -- E3
theorem test_decode_call_top : decodeWord 0b0010_1111_1111_1111#16 = .call 0xFFF := by decide  -- E4
theorem test_decode_add : decodeWord 0b1000_0000_0001_0100#16 = .add 0 1 := by decide          -- E5
theorem test_decode_add_asymmetric : decodeWord 0b1000_0001_0010_0100#16 = .add 1 2 := by decide -- A17
theorem test_decode_neighbours :                                                               -- E7 to E14
    [0x00E0, 0x01EE, 0x0001, 0x1234, 0x8015, 0x8010, 0xF00F, 0x0EEE].all
      (fun w : Word => decodeWord w == .unimplemented w) = true := by decide
theorem test_decode_bytes : decodeBytes [0x21, 0x00, 0xAB] = .ok (.call 0x100, [0xAB]) := by rfl
theorem test_decode_truncated : decodeBytes [0x21] = .error (.truncated 1) := by rfl
theorem test_decode_table_word : decodeTableWord 16 0x8124 = some (.add 1 2) := by decide
theorem test_encode_call : encode (.call 0x100) = 0x2100 := by decide                          -- R69
theorem test_encode_add : encode (.add 0 1) = 0x8014 := by decide                              -- R69

/-! ### WellFormed refuses a catch-all term for a word of each defined row -/

theorem test_illformed_halt : (Instr.unimplemented 0x0000).wellFormed = false := by decide
theorem test_illformed_ret : (Instr.unimplemented 0x00EE).wellFormed = false := by decide
theorem test_illformed_call : (Instr.unimplemented 0x2ABC).wellFormed = false := by decide
theorem test_illformed_add : (Instr.unimplemented 0x8AB4).wellFormed = false := by decide
theorem test_wellformed_other : (Instr.unimplemented 0x8AB5).wellFormed = true := by decide

/-! ### Instructions, one step each -/

theorem test_halt : stepHas (at_ 0x004 0x0000)                                                 -- C1
    (fun t => t.pc == 0x006 && t.status == .halted) = true := by decide
theorem test_call : stepHas (at_ 0xFFE 0x2000)                                                 -- C8
    (fun t => t.pc == 0x000 && t.sp == 1 && t.stack.get 0 == 0x1000) = true := by decide
theorem test_call_overflow : stepHas (withStack (at_ 0x010 0x2200) 16 0x002)                   -- C4
    (fun t => t.pc == 0x012 && t.sp == 16 && t.status == .faulted .stackOverflow) = true := by decide
theorem test_ret : stepHas (withStack (at_ 0x104 0x00EE) 1 0x002)                              -- C3
    (fun t => t.pc == 0x002 && t.sp == 0 && t.stack.get 0 == 0x002) = true := by decide
theorem test_ret_underflow : stepHas (at_ 0x010 0x00EE)                                        -- C5
    (fun t => t.pc == 0x012 && t.sp == 0 && t.status == .faulted .stackUnderflow) = true := by decide
theorem test_add : stepHas (((at_ 0 0x8014).writeReg 0 250).writeReg 1 10)                     -- A1
    (fun t => t.readReg 0 == 4 && t.readReg 1 == 10 && t.readReg 15 == 1) = true := by decide
theorem test_add_into_flag : stepHas (((at_ 0 0x8F14).writeReg 15 200).writeReg 1 100)         -- A13
    (fun t => t.readReg 15 == 1 && t.readReg 1 == 100) = true := by decide
theorem test_unimplemented : stepHas (at_ 0 0x1234)                                            -- F6
    (fun t => t.pc == 0x002 && t.status == .faulted (.unimplementedOpcode 0x1234)) = true := by decide

/-! ### The fetch check -/

theorem test_fetch_out_of_bounds : stepHas { at_ 0 0 with pc := 0x1000 }                       -- F3
    (fun t => t.pc == 0x1000 && t.status == .faulted (.fetchOutOfBounds 0x1000)) = true := by decide
theorem test_fetch_misaligned : stepHas { at_ 0 0 with pc := 0x101 }                           -- P5
    (fun t => t.pc == 0x101 && t.status == .faulted (.fetchMisaligned 0x101)) = true := by decide
/-- At `0xFFF` both conditions hold: R81 and R135 check the bound first (vector C7 says otherwise: log 7). -/
theorem test_fetch_last_byte : stepHas { at_ 0 0 with pc := 0xFFF }
    (fun t => t.status == .faulted (.fetchOutOfBounds 0xFFF)) = true := by decide

/-! ### Memory, the host's commands, the load -/

theorem test_overlapping_words :                                                               -- M10
    Memory.write16 (Memory.write16 [] 0x010 0x1122) 0x011 0x3344 =
      [(0x010, 0x11), (0x011, 0x33), (0x012, 0x44)] := by decide
theorem test_zero_is_unlisted : Memory.write16 (Memory.write16 [] 0x100 0xABCD) 0x101 0x0000 =
    [(0x100, 0xAB)] := by decide
theorem test_write_last_word :                                                                 -- M6, M7
    (hostCommand (.writeInstruction 4094 0x1234) State.reset).1.mem = [(4094, 0x12), (4095, 0x34)] ∧
    (hostCommand (.writeInstruction 4095 0x1234) State.reset).2 = .error .invalidAddress := by decide
theorem test_register_bounds :                                                                 -- H2, H3
    (hostCommand (.writeRegister 15 7) State.reset).1.readReg 15 = 7 ∧
    (hostCommand (.writeRegister 16 7) State.reset).2 = .error .invalidRegister := by decide
theorem test_counter_bounds :                                                                  -- H6, H8
    (hostCommand (.setProgramCounter 0x0FFE) State.reset).1.pc = 0x0FFE ∧
    (hostCommand (.setProgramCounter 4096) State.reset).2 = .error .invalidProgramCounter := by decide
theorem test_run_from_reset : (hostCommand .run State.reset).2 = .run .halted := by rfl        -- F1
theorem test_placed_word : stepHas (State.reset.withFetchWord 16 0x2100)                       -- C2
    (fun t => t.pc == 0x100 && t.stack.get 0 == 0x002) = true := by decide
theorem test_assembler_rejects : assemble (.call 0x1000) = none ∧ assemble (.add 16 0) = none ∧
    assembleText ['.', 'w', 'o', 'r', 'd', ' ', '0', 'x', '1', '2', '3', '4'] = some 0x1234 := by decide
theorem test_reset_memory_wf : State.reset.mem.wf = true := by decide

/-! ### Witnesses: a concrete input that meets the hypotheses of each statement (clause by clause, at a
boundary of its range where it has one) -/

theorem witness_DecodingAnEncodedInstructionGivesItBack :
    (Instr.unimplemented 0xFFFF).wellFormed = true ∧ (Instr.call 0xFFF).wellFormed = true := by decide
theorem witness_AssemblyLinesEncodeTheirInstruction :
    (0xFFF ≤ 0xFFF) ∧ (0xFFF < 0x1000) ∧ (15 < 16 ∨ 15 < 0) := by decide
theorem witness_MemoryWordIsItsTwoBytesHighFirst :
    (4094 ≤ 4094) ∧ (at_ 4094 0x1234).mem.read 4094 = Memory.read [(4094, 0x12), (4095, 0x34)] 4094 ∧
    (at_ 4094 0x1234).mem.read 4095 = Memory.read [(4094, 0x12), (4095, 0x34)] 4095 := by decide
theorem witness_WordWriteThenReadGivesTheWordAndKeepsTheRest :
    Memory.wf [(4094, 0x12), (4095, 0x34)] = true ∧ 4094 ≤ 4094 ∧ 4093 + 1 = 4094 ∧ 0 + 1 < 4094 := by
  decide
theorem witness_CanonicalMemoriesThatReadTheSameAreEqual :
    Memory.wf [(4094, 0x12)] = true ∧ ∀ a, Memory.read [(4094, 0x12)] a = Memory.read [(4094, 0x12)] a :=
  ⟨by decide, fun _ => rfl⟩
theorem witness_StepRunsTheDecodedInstructionAfterTheAdvance :
    (at_ 4094 0x2000).status = .running ∧ (at_ 4094 0x2000).pc.toNat ≤ 4094 ∧
    (at_ 4094 0x2000).pc.toNat % 2 = 0 ∧
    decodeBytes [(at_ 4094 0x2000).mem.read 4094, (at_ 4094 0x2000).mem.read (4094 + 1)] =
      .ok (.call 0, []) := ⟨by decide, by decide, by decide, by rfl⟩
theorem witness_AnIterationReadsOnlyTheFetchedWord :
    AgreeButMemory (at_ 0 0x8014) { at_ 0 0x8014 with mem := [(0, 0x80), (1, 0x14), (4095, 1)] } ∧
    (at_ 0 0x8014).mem.read 0 = Memory.read [(0, 0x80), (1, 0x14), (4095, 1)] 0 ∧
    (at_ 0 0x8014).mem.read 1 = Memory.read [(0, 0x80), (1, 0x14), (4095, 1)] 1 ∧
    stepHas (at_ 0 0x8014) (fun _ => true) = true ∧
    (at_ 4094 0x8014).status = .running ∧ (at_ 4094 0x8014).pc.toNat ≤ 4094 ∧
    (at_ 4094 0x8014).pc.toNat % 2 = 0 :=
  ⟨⟨rfl, rfl, rfl, rfl, rfl⟩, by decide, by decide, by decide, by decide⟩
theorem witness_FetchCheckComesFirstBoundBeforeAlignment :
    ({ at_ 0 0 with pc := 4095 } : State).status = .running ∧
    ({ at_ 0 0 with pc := 4095 } : State).pc.toNat > 4094 ∧
    ({ at_ 0 0 with pc := 4093 } : State).pc.toNat ≤ 4094 ∧
    ({ at_ 0 0 with pc := 4093 } : State).pc.toNat % 2 = 1 := by decide
theorem witness_BothFetchConditionsMeetExactlyAtTheLastByte :
    Reachable (startRun (hostCommand (.writeInstruction 0 0x2FFF) State.reset).1) ∧
    stepHas (startRun (hostCommand (.writeInstruction 0 0x2FFF) State.reset).1)
      (fun t => t.pc == 0xFFF && t.status == .running) = true :=
  ⟨.started (.commanded _ .constructed (by decide)) (by decide), by decide⟩
theorem witness_OutsideARunNoIterationHappens :
    State.reset.status = .halted ∧
    ({ State.reset with status := .faulted .stackOverflow } : State).status =
      .faulted .stackOverflow := by decide
theorem witness_EveryMeaningAnswersANextState : ∀ f, State.reset.status ≠ .faulted f :=
  fun _ h => nomatch h
theorem witness_HaltEndsTheRunChangingOnlyTheStatus :
    State.reset.status = .halted ∧ ({ State.reset with pc := 4094 } : State).pc.toNat ≤ 4094 ∧
    ({ State.reset with pc := 4094 } : State).pc.toNat % 2 = 0 ∧
    ({ State.reset with pc := 4094 } : State).mem.read16 4094 = 0x0000 := by decide
theorem witness_RetPopsIntoTheCounter :
    (withStack State.reset 16 2).sp.val = (15 : Fin Config.STACK_DEPTH).val + 1 ∧
    (withStack State.reset 1 2).sp.val = (0 : Fin Config.STACK_DEPTH).val + 1 ∧
    State.reset.sp.val = 0 := by decide
theorem witness_CallPushesTheCounterAndGoesToItsAddress :
    (withStack State.reset 15 2).sp.val = (15 : Fin Config.STACK_DEPTH).val ∧
    (withStack State.reset 16 2).sp.val = 16 := by decide
theorem witness_AddGivesTheWrappedSumAndTheCarry :
    ((State.reset.writeReg 0 250).writeReg 1 10).readReg 0 = 250 ∧
    ((State.reset.writeReg 0 250).writeReg 1 10).readReg 1 = 10 := by decide
theorem witness_AddCornerCases :
    ((State.reset.writeReg 0 200).writeReg 1 55).readReg 0 = 200 ∧
    (200#8).toNat + (55#8).toNat = 255 ∧ (200#8).toNat + (56#8).toNat = 256 ∧
    (255#8).toNat + (255#8).toNat = 510 := by decide
theorem witness_AddDoesNotReadTheIncomingFlag : (14 : RegIdx) ≠ 15 ∧ (0 : RegIdx) ≠ 15 := by decide
theorem witness_UnimplementedWordsAreFatalAfterTheAdvance :
    matchesNoRow 0x00E0 = true ∧ (at_ 4094 0x00E0).status = .running ∧
    (at_ 4094 0x00E0).pc.toNat ≤ 4094 ∧ (at_ 4094 0x00E0).pc.toNat % 2 = 0 ∧
    (at_ 4094 0x00E0).mem.read16 4094 = 0x00E0 ∧ fieldC 0x00EF = 0x0 ∧ fieldC 0x1234 ≠ 0x0 ∧
    fieldC 0x1234 ≠ 0x2 ∧ fieldC 0x1234 ≠ 0x8 ∧ fieldC 0x8015 = 0x8 ∧ fieldD 0x8015 ≠ 0x4 := by decide
theorem witness_OnlyTheNamedInstructionsChangeEachComponent :
    ∃ t, exec (.add 0 1) (State.reset.writeReg 1 1) = .next t ∧
      t.readReg 0 ≠ (State.reset.writeReg 1 1).readReg 0 := ⟨_, rfl, by decide⟩
theorem witness_RegistersDoNotSteerControl :
    AgreeButRegisters (at_ 0 0x8014) ((at_ 0 0x8014).writeReg 0 7) := ⟨rfl, rfl, rfl, rfl, rfl⟩
/-- CALL 4 at 0, and a RET at 4. -/
def callThenRet : State := { at_ 0 0x2004 with mem := [(0, 0x20), (1, 0x04), (5, 0xEE)] }
theorem witness_CallThenReturnRestoresCounterAndPointer :
    callThenRet.status = .running ∧ callThenRet.pc.toNat ≤ 4094 ∧ callThenRet.pc.toNat % 2 = 0 ∧
    callThenRet.sp.val < 16 ∧ decodeWord (callThenRet.mem.read16 0) = .call 4 ∧
    (4#12).toNat ≤ 4094 ∧ (4#12).toNat % 2 = 0 ∧ callThenRet.mem.read16 4 = 0x00EE := by decide
/-- The hypotheses met with `n = 0`: the callee returns at once. -/
theorem witness_NestedCallsReturnToTheWordAfterTheCall :
    decodeWord (callThenRet.mem.read16 0) = .call 4 ∧
    stepHas callThenRet (fun s1 =>
      callThenRet.sp.val < s1.sp.val && stepHas s1 (fun t => t.sp == callThenRet.sp)) = true := by decide
theorem witness_FatalConditionsArePrecise :
    (at_ 0 0x00EE).status = .running ∧
    stepHas (at_ 0 0x00EE) (fun t => t.status == .faulted .stackUnderflow) = true := by decide
theorem witness_EachEndOfARunHasItsCause :
    (at_ 0 0).status = .running ∧ stepHas (at_ 0 0) (fun t => t.status == .halted) = true := by decide
theorem witness_AFaultIsStickyUntilANewInstance :
    ({ State.reset with status := .faulted (.fetchMisaligned 1) } : State).status =
      .faulted (.fetchMisaligned 1) := by decide
theorem witness_RecoverableErrorsHaveTheirCauseAndChangeNothing :
    (hostCommand (.readInstruction 4095) State.reset).2 = .error .invalidAddress := by decide
theorem witness_RegisterCommandsWriteAndReadOneRegister : (14 : RegIdx) ≠ 15 ∧ 16 ≥ 16 := by decide
theorem witness_CounterCommandsAcceptEvenAddressesInMemory :
    4094 < 4096 ∧ 4094 % 2 = 0 ∧ (4096 ≥ 4096 ∨ 4096 % 2 = 1) := by decide
theorem witness_WriteInstructionWritesExactlyTwoBytes :
    State.reset.mem.wf = true ∧ 4094 ≤ 4094 ∧ 4095 > 4094 := by decide
theorem witness_ReadInstructionReturnsTheWordLastWritten :
    (at_ 4094 0x1234).mem.wf = true ∧ 4094 ≤ 4094 ∧ 4095 > 4094 := by decide
theorem witness_OnlyRunChangesStackAndStatusAndItWritesNoMemory :
    Command.readProgramCounter ≠ .run := by decide
theorem witness_SetUpCommandsCommute :
    (0 ≠ 15) ∧ State.reset.mem.wf = true ∧ 4092 + 1 < 4094 ∧ 4093 ≤ 4094 ∧ 4094 ≤ 4094 := by decide
theorem witness_InstancesAreIndependent :
    (1 ≠ 0) ∧ ([State.reset, at_ 0 0] : Instances)[1]? = some (at_ 0 0) := by decide
theorem witness_ARunIsItsIterationsAndTheyAreBounded : ∀ f, (at_ 0 0).status ≠ .faulted f :=
  fun _ h => nomatch h
theorem witness_StackEntriesNotInUseAreUnobservable :
    AgreeInUse (at_ 0 0x2000) { at_ 0 0x2000 with stack := Vector.replicate 16 7 } :=
  ⟨rfl, rfl, rfl, rfl, rfl, fun _ h => absurd h (Nat.not_lt_zero _)⟩
theorem witness_ResetZeroesEveryComponent : 4095 < 4096 := by decide
/-- A state with an entry in use, at the largest counter. -/
theorem witness_EveryStepKeepsTheInvariant :
    StateInv { withStack (at_ 0xFFE 0x00EE) 16 0x1000 with pc := 0xFFE } ∧
    stepHas (withStack (at_ 0xFFE 0x00EE) 16 0x1000) (fun t => t.pc == 0x1000) = true :=
  ⟨⟨by decide, by decide, by decide⟩, by decide⟩
theorem witness_EveryHostCommandKeepsTheInvariant : StateInv State.reset ∧ Reachable State.reset :=
  ⟨⟨by decide, by decide, by decide⟩, .constructed⟩
theorem witness_ThePlacedWordIsTheOneTheNextStepRuns : (at_ 0 0x8014).mem.wf = true := by decide

end Sys2Proof.Tests
end

section
/-! Proofs about construction and reset (10_state.md R35): what each accessor reads in the reset state. -/

namespace Sys2Proof.Machine

/-- Construction (R119) is the reset of the core. -/
theorem construct_eq_core_reset : construct = Sys2Proof.core.reset := core_reset.symm

/-- The reset memory lists no address, so each reads as the reset content. -/
theorem reset_mem_read (a : Nat) : State.reset.mem.read a = resetByte := read_nil a

@[simp] theorem reset_readReg (i : RegIdx) : State.reset.readReg i = 0x00#8 :=
  Vector.getElem_replicate i.isLt

@[simp] theorem reset_stack_get (i : Fin Config.STACK_DEPTH) : State.reset.stack.get i = 0x0000#16 :=
  Vector.getElem_replicate i.isLt

@[simp] theorem reset_pc : State.reset.pc = 0x0000#16 := rfl
@[simp] theorem reset_sp : State.reset.sp = 0 := rfl
@[simp] theorem reset_status : State.reset.status = .halted := rfl

/-- Settles O42: each component of the reset state, by the lemma about its accessor. -/
theorem resetZeroesEveryComponent : Obligations.ResetZeroesEveryComponent :=
  ⟨construct_eq_core_reset, fun a _ => reset_mem_read a, reset_readReg, reset_pc, reset_stack_get,
    congrArg Fin.val reset_sp, reset_status⟩

end Sys2Proof.Machine
end

section
/-! Proofs about the word primitives of memory (20_memory.md R43, R44) and the two host commands that reach
them (45_host_interface.md R116, R117). -/

namespace Sys2Proof.Machine

/-! ### The word primitives -/

/-- R43: the word read is its two bytes, the high one first. -/
theorem read16_toNat (m : Memory) (a : Nat) :
    (m.read16 a).toNat = (m.read a).toNat * 256 + (m.read (a + 1)).toNat :=
  wordOfBytes_toNat _ _

/-- R43: a word read depends on its two bytes alone. -/
theorem read16_congr {m m' : Memory} {a : Nat} (hhi : m'.read a = m.read a)
    (hlo : m'.read (a + 1) = m.read (a + 1)) : m'.read16 a = m.read16 a :=
  congrArg₂ wordOfBytes hhi hlo

/-- R44: the byte at the address of a word write. -/
theorem read_write16_high {a : Nat} (w : Word) {m : Memory} (ha : a ≤ Config.LAST_WORD)
    (hm : m.wf = true) : (m.write16 a w).read a = highByte w := by
  rw [read_write16 a a w ha hm, if_pos rfl]

/-- R44: the byte after the address of a word write. -/
theorem read_write16_low {a : Nat} (w : Word) {m : Memory} (ha : a ≤ Config.LAST_WORD)
    (hm : m.wf = true) : (m.write16 a w).read (a + 1) = lowByte w := by
  rw [read_write16 a (a + 1) w ha hm, if_neg (Nat.succ_ne_self a), if_pos rfl]

/-- R44: a word write leaves every byte but its two alone, in any memory. -/
theorem read_write16_other {a b : Nat} (w : Word) (m : Memory) (hhi : b ≠ a) (hlo : b ≠ a + 1) :
    (m.write16 a w).read b = m.read b :=
  (read_write_other hlo _ _).trans (read_write_other hhi _ _)

/-! ### The commands that reach them -/

theorem hostCommand_readInstruction_of_le {a : Nat} (ha : a ≤ Config.LAST_WORD) (s : State) :
    hostCommand (.readInstruction a) s = (s, .word (s.mem.read16 a)) :=
  if_neg (Nat.not_lt.mpr ha)

theorem hostCommand_writeInstruction_of_le {a : Nat} (ha : a ≤ Config.LAST_WORD) (w : Word)
    (s : State) : hostCommand (.writeInstruction a w) s = (s.setMem (s.mem.write16 a w), .ok) :=
  if_neg (Nat.not_lt.mpr ha)

theorem hostCommand_writeInstruction_of_gt {a : Nat} (ha : a > Config.LAST_WORD) (w : Word)
    (s : State) : hostCommand (.writeInstruction a w) s = (s, .error .invalidAddress) :=
  if_pos ha

/-! ### The obligations -/

/-- Settles O8, by the two lemmas about `read16` and the equation of `read_instruction` within the bound. -/
theorem memoryWordIsItsTwoBytesHighFirst : Obligations.MemoryWordIsItsTwoBytesHighFirst := by
  intro m a ha
  refine ⟨read16_toNat m a, fun _ => read16_congr, ?_⟩
  rintro s rfl
  exact hostCommand_readInstruction_of_le ha s

/-- Settles O34: within the bound the command is one `write16`, whose two bytes and frame are lemmas
above; the last clause is the instance at address 0. -/
theorem writeInstructionWritesExactlyTwoBytes :
    Obligations.WriteInstructionWritesExactlyTwoBytes := by
  refine ⟨fun s a w hm ha => ?_, fun s a w ha => hostCommand_writeInstruction_of_gt ha w s,
    fun s hm => ?_⟩
  · refine ⟨_, hostCommand_writeInstruction_of_le ha w s, ?_, ?_,
      fun b => read_write16_other w s.mem, rfl, rfl, rfl, rfl, rfl⟩
    · rw [setMem_mem, read_write16_high w ha hm, highByte_toNat]
    · rw [setMem_mem, read_write16_low w ha hm, lowByte_toNat]
  · have h0 : 0 ≤ Config.LAST_WORD := Nat.zero_le _
    rw [hostCommand_writeInstruction_of_le h0]
    exact ⟨read_write16_high 0x2100 h0 hm, read_write16_low 0x2100 h0 hm⟩

end Sys2Proof.Machine
end

section
/-! Proofs about the encoding (30_encoding.md R61, R64, R66): the fields of a word as numbers, a word and a
masked word compared field by field, the rows of the dispatch table, and the step of a word of no row. -/

namespace Sys2Proof

/-! ### The fields as numbers (R61) -/

theorem fieldC_toNat (w : Word) : (fieldC w).toNat = w.toNat / 2 ^ 12 := by
  have := w.isLt
  simp only [fieldC, BitVec.extractLsb'_toNat, Nat.shiftRight_eq_div_pow]
  omega

theorem fieldX_toNat (w : Word) : (fieldX w).toNat = w.toNat / 2 ^ 8 % 2 ^ 4 := by
  simp only [fieldX, BitVec.extractLsb'_toNat, Nat.shiftRight_eq_div_pow]

theorem fieldY_toNat (w : Word) : (fieldY w).toNat = w.toNat / 2 ^ 4 % 2 ^ 4 := by
  simp only [fieldY, BitVec.extractLsb'_toNat, Nat.shiftRight_eq_div_pow]

theorem fieldD_toNat (w : Word) : (fieldD w).toNat = w.toNat % 2 ^ 4 := by
  simp only [fieldD, BitVec.extractLsb'_toNat, Nat.shiftRight_zero]

theorem fieldNNN_toNat (w : Word) : (fieldNNN w).toNat = w.toNat % 2 ^ 12 := by
  simp only [fieldNNN, BitVec.extractLsb'_toNat, Nat.shiftRight_zero]

/-- `nnn` overlaps `x`, `y` and `d`: it is the three of them, `x` the highest. -/
theorem fieldNNN_toNat_eq_fields (w : Word) :
    (fieldNNN w).toNat = (fieldX w).toNat * 2 ^ 8 + (fieldY w).toNat * 2 ^ 4 + (fieldD w).toNat := by
  rw [fieldNNN_toNat, fieldX_toNat, fieldY_toNat, fieldD_toNat]
  omega

/-! ### Words compared field by field -/

/-- The four 4-bit fields are the whole word. -/
theorem word_eq_iff_fields (w v : Word) :
    w = v ↔ fieldC w = fieldC v ∧ fieldX w = fieldX v ∧ fieldY w = fieldY v ∧ fieldD w = fieldD v := by
  refine ⟨fun h => h ▸ ⟨rfl, rfl, rfl, rfl⟩, fun ⟨hc, hx, hy, hd⟩ => BitVec.eq_of_toNat_eq ?_⟩
  have hc := congrArg BitVec.toNat hc
  have hx := congrArg BitVec.toNat hx
  have hy := congrArg BitVec.toNat hy
  have hd := congrArg BitVec.toNat hd
  rw [fieldC_toNat, fieldC_toNat] at hc
  rw [fieldX_toNat, fieldX_toNat] at hx
  rw [fieldY_toNat, fieldY_toNat] at hy
  rw [fieldD_toNat, fieldD_toNat] at hd
  omega

/-- A mask acts on each field by its own part of the mask. -/
theorem masked_eq_iff_fields (w m v : Word) :
    w &&& m = v ↔
      fieldC w &&& fieldC m = fieldC v ∧ fieldX w &&& fieldX m = fieldX v ∧
      fieldY w &&& fieldY m = fieldY v ∧ fieldD w &&& fieldD m = fieldD v := by
  rw [word_eq_iff_fields]
  simp only [fieldC, fieldX, fieldY, fieldD, BitVec.extractLsb'_and]

/-- R64: a mask digit of `F` keeps its field. -/
@[simp] theorem field_and_allOnes (f : BitVec 4) : f &&& 0xF#4 = f := BitVec.and_allOnes

/-- R64: a mask of four such digits keeps the word. -/
@[simp] theorem word_and_allOnes (w : Word) : w &&& 0xFFFF#16 = w := BitVec.and_allOnes

/-! ### The rows of the dispatch table: mask and match against the condition (R64) -/

@[simp] theorem matchesHalt_iff (w : Word) : matchesHalt w = true ↔ w = 0x0000#16 := by
  rw [matchesHalt, beq_iff_eq, word_and_allOnes]

@[simp] theorem matchesRet_iff (w : Word) : matchesRet w = true ↔ w = 0x00EE#16 := by
  rw [matchesRet, beq_iff_eq, word_and_allOnes]

@[simp] theorem matchesCall_iff (w : Word) : matchesCall w = true ↔ fieldC w = 0x2#4 := by
  rw [matchesCall, beq_iff_eq, masked_eq_iff_fields]
  change fieldC w &&& 0xF#4 = 0x2#4 ∧ fieldX w &&& 0x0#4 = 0x0#4 ∧ fieldY w &&& 0x0#4 = 0x0#4 ∧
    fieldD w &&& 0x0#4 = 0x0#4 ↔ _
  simp

@[simp] theorem matchesAdd_iff (w : Word) :
    matchesAdd w = true ↔ fieldC w = 0x8#4 ∧ fieldD w = 0x4#4 := by
  rw [matchesAdd, beq_iff_eq, masked_eq_iff_fields]
  change fieldC w &&& 0xF#4 = 0x8#4 ∧ fieldX w &&& 0x0#4 = 0x0#4 ∧ fieldY w &&& 0x0#4 = 0x0#4 ∧
    fieldD w &&& 0xF#4 = 0x4#4 ↔ _
  simp

/-- R66: a word of no row fails the condition of each. -/
theorem matchesNoRow_iff (w : Word) :
    matchesNoRow w = true ↔
      w ≠ 0x0000#16 ∧ w ≠ 0x00EE#16 ∧ fieldC w ≠ 0x2#4 ∧ ¬(fieldC w = 0x8#4 ∧ fieldD w = 0x4#4) := by
  simp only [matchesNoRow, Bool.and_eq_true, Bool.not_eq_true', ← Bool.not_eq_true, matchesHalt_iff,
    matchesRet_iff, matchesCall_iff, matchesAdd_iff, and_assoc, ne_eq]

theorem matchesHalt_iff_fields (w : Word) :
    matchesHalt w = true ↔
      fieldC w = 0x0#4 ∧ fieldX w = 0x0#4 ∧ fieldY w = 0x0#4 ∧ fieldD w = 0x0#4 :=
  (matchesHalt_iff w).trans (word_eq_iff_fields w 0x0000#16)

theorem matchesRet_iff_fields (w : Word) :
    matchesRet w = true ↔
      fieldC w = 0x0#4 ∧ fieldX w = 0x0#4 ∧ fieldY w = 0xE#4 ∧ fieldD w = 0xE#4 :=
  (matchesRet_iff w).trans (word_eq_iff_fields w 0x00EE#16)

/-! ### The rows of the dispatch table: what the decoder answers (R85) -/

theorem decodeWord_haltWord : decodeWord 0x0000#16 = .halt := rfl

theorem decodeWord_retWord : decodeWord 0x00EE#16 = .ret := rfl

/-- HALT and RET are both words of family 0. -/
theorem ne_haltWord_and_ne_retWord {w : Word} (h : fieldC w ≠ 0x0#4) :
    w ≠ 0x0000#16 ∧ w ≠ 0x00EE#16 :=
  ⟨fun hw => h (hw ▸ rfl), fun hw => h (hw ▸ rfl)⟩

theorem decodeWord_call {w : Word} (hc : fieldC w = 0x2#4) : decodeWord w = .call (fieldNNN w) := by
  obtain ⟨h0, hr⟩ := ne_haltWord_and_ne_retWord (w := w) (by rw [hc]; decide)
  rw [decodeWord, if_neg h0, if_neg hr, if_pos hc]

theorem decodeWord_add {w : Word} (hc : fieldC w = 0x8#4) (hd : fieldD w = 0x4#4) :
    decodeWord w = .add (regIndex (fieldX w)) (regIndex (fieldY w)) := by
  obtain ⟨h0, hr⟩ := ne_haltWord_and_ne_retWord (w := w) (by rw [hc]; decide)
  rw [decodeWord, if_neg h0, if_neg hr, if_neg (by rw [hc]; decide), if_pos ⟨hc, hd⟩]

theorem decodeWord_unimplemented {w : Word} (h : matchesNoRow w = true) :
    decodeWord w = .unimplemented w := by
  obtain ⟨h0, hr, hc, ha⟩ := (matchesNoRow_iff w).mp h
  rw [decodeWord, if_neg h0, if_neg hr, if_neg hc, if_neg ha]

/-- Every word matches the row of the instruction it decodes to. -/
theorem rowOf_decodeWord (w : Word) : Laws.MatchesTableRow.rowOf (decodeWord w) w = true := by
  rcases decodeWord_cases w with ⟨h, hd⟩ | ⟨h, hd⟩ | ⟨hc, hd⟩ | ⟨hc, h4, hd⟩ | ⟨h0, hr, hc, ha, hd⟩ <;>
    rw [hd]
  · exact (matchesHalt_iff w).mpr h
  · exact (matchesRet_iff w).mpr h
  · exact (matchesCall_iff w).mpr hc
  · exact (matchesAdd_iff w).mpr ⟨hc, h4⟩
  · exact (matchesNoRow_iff w).mpr ⟨h0, hr, hc, ha⟩

/-- An answer of the decoder, once known, names the row the word matches. -/
theorem rowOf_of_decodeWord {w : Word} {i : Instr} (h : decodeWord w = i) :
    Laws.MatchesTableRow.rowOf i w = true :=
  h ▸ rowOf_decodeWord w

namespace Machine

/-! ### The step of a fetchable counter (R81 to R85) -/

/-- The fetch check passes at an even counter within the bound (R81). -/
theorem fetchFault_eq_none {s : State} (hle : s.pc.toNat ≤ Config.LAST_WORD)
    (heven : s.pc.toNat % 2 = 0) : fetchFault s = none := by
  rw [fetchFault, if_neg (Nat.not_lt.mpr hle), if_neg (by omega)]

/-- Where the fetch check passes, a step inside a run is the meaning of the decoded word, after the
advance. -/
theorem step_of_fetchable {s : State} (hr : s.status = .running) (hle : s.pc.toNat ≤ Config.LAST_WORD)
    (heven : s.pc.toNat % 2 = 0) :
    step s = exec (decodeWord (s.mem.read16 s.pc.toNat)) (s.setPc (s.pc + 2#16)) := by
  simp only [step, hr, iteration, fetchFault_eq_none hle heven, fetchWord, advance_eq]

theorem exec_unimplemented (w : Word) (s : State) :
    exec (.unimplemented w) s = .next (s.setStatus (.faulted (.unimplementedOpcode w))) := rfl

/-! ### The obligations -/

/-- Settles O4: the conditions are the lemmas about each row's mask, and a row and the decoder's answer
follow from each other by `rowOf_of_decodeWord` and the equation of `decodeWord` on that row. -/
theorem dispatchTableRowsSelectTheirInstruction :
    Obligations.DispatchTableRowsSelectTheirInstruction := by
  intro w
  refine ⟨⟨matchesHalt_iff_fields w, fun h => ?_, rowOf_of_decodeWord⟩,
    ⟨matchesRet_iff_fields w, fun h => ?_, rowOf_of_decodeWord⟩,
    ⟨matchesCall_iff w, fun h => decodeWord_call ((matchesCall_iff w).mp h), rowOf_of_decodeWord⟩,
    ⟨matchesAdd_iff w, fun h => ?_, rowOf_of_decodeWord⟩,
    decodeWord_unimplemented, rowOf_of_decodeWord⟩
  · rw [(matchesHalt_iff w).mp h, decodeWord_haltWord]
  · rw [(matchesRet_iff w).mp h, decodeWord_retWord]
  · obtain ⟨hc, hd⟩ := (matchesAdd_iff w).mp h
    exact decodeWord_add hc hd

/-- Settles O23: the step is the catch-all's meaning after the advance, and each family listed fails the
four conditions of `matchesNoRow_iff`, by its family `c` alone but for the two words of family 0. -/
theorem unimplementedWordsAreFatalAfterTheAdvance :
    Obligations.UnimplementedWordsAreFatalAfterTheAdvance := by
  refine ⟨?_, fun s w => exec_unimplemented w s, fun w hc h0 hr => ?_, fun w h0 h2 h8 => ?_,
    fun w hc hd => ?_⟩
  · rintro s _ hw hr hle heven rfl
    rw [step_of_fetchable hr hle heven, decodeWord_unimplemented hw, exec_unimplemented]
    rfl
  · exact (matchesNoRow_iff w).mpr
      ⟨h0, hr, by rw [hc]; decide, fun h => absurd (hc.symm.trans h.1) (by decide)⟩
  · obtain ⟨hz, hr⟩ := ne_haltWord_and_ne_retWord h0
    exact (matchesNoRow_iff w).mpr ⟨hz, hr, h2, fun h => h8 h.1⟩
  · obtain ⟨hz, hr⟩ := ne_haltWord_and_ne_retWord (w := w) (by rw [hc]; decide)
    exact (matchesNoRow_iff w).mpr ⟨hz, hr, by rw [hc]; decide, fun h => hd h.2⟩

/-- Settles O3, by the value of each field and the overlap. -/
theorem fieldsAreTheNamedBitsOfTheWord : Obligations.FieldsAreTheNamedBitsOfTheWord :=
  fun w => ⟨fieldC_toNat w, fieldX_toNat w, fieldY_toNat w, fieldD_toNat w, fieldNNN_toNat w,
    fieldNNN_toNat_eq_fields w⟩

end Machine

end Sys2Proof
end

section
/-! Proofs about the loop (40_fetch_decode_execute.md R81 to R85). R82 is shown as a commutation: replacing
memory before a meaning, or before an iteration that fetches the same word, is replacing it afterwards. -/

namespace Sys2Proof

/-- R63: the decoder answers well-formed instructions only. -/
theorem decodeWord_wellFormed (w : Word) : (decodeWord w).wellFormed = true := by
  rcases decodeWord_cases w with ⟨-, hd⟩ | ⟨-, hd⟩ | ⟨-, hd⟩ | ⟨-, -, hd⟩ | ⟨h0, hr, hc, ha, hd⟩ <;>
    rw [hd]
  · rfl
  · rfl
  · rfl
  · rfl
  · exact (matchesNoRow_iff w).mpr ⟨h0, hr, hc, ha⟩

/-- Two bytes decode to the instruction of their word, with nothing left over (R60). -/
theorem decodeBytes_pair (hi lo : Byte) :
    decodeBytes [hi, lo] = .ok (decodeWord (wordOfBytes hi lo), []) := rfl

namespace Machine

/-! ### States that differ in memory only -/

theorem agreeButMemory_setMem (s : State) (m : Memory) : AgreeButMemory s (s.setMem m) :=
  ⟨rfl, rfl, rfl, rfl, rfl⟩

/-- Such a state is the other one with its memory replaced. -/
theorem eq_setMem_of_agreeButMemory {s t : State} (h : AgreeButMemory s t) : t = s.setMem t.mem :=
  state_ext rfl h.V.symm h.pc.symm h.stack.symm h.sp.symm h.status.symm

/-! ### The meanings do not read memory -/

theorem push_setMem (v : Word) (s : State) (m : Memory) :
    push v (s.setMem m) = (push v s).map (·.setMem m) := by
  by_cases h : s.sp.val = Config.STACK_DEPTH
  · simp [push, h, Except.map]
  · simp [push, h, Except.map, State.setMem]

theorem pop_setMem (s : State) (m : Memory) :
    pop (s.setMem m) = (pop s).map fun p => (p.1, p.2.setMem m) := by
  by_cases h : s.sp.val = 0
  · simp [pop, h, Except.map]
  · simp [pop, h, Except.map, State.setMem]

/-- R82: no meaning reads memory. -/
theorem exec_setMem (i : Instr) (s : State) (m : Memory) :
    ∃ u, exec i s = .next u ∧ exec i (s.setMem m) = .next (u.setMem m) := by
  cases i with
  | halt => exact ⟨_, rfl, rfl⟩
  | ret =>
    simp only [exec, execRet, pop_setMem]
    cases pop s with
    | error f => exact ⟨_, rfl, rfl⟩
    | ok p => exact ⟨_, rfl, rfl⟩
  | call nnn =>
    simp only [exec, execCall, setMem_pc, push_setMem]
    cases push s.pc s with
    | error f => exact ⟨_, rfl, rfl⟩
    | ok s' => exact ⟨_, rfl, rfl⟩
  | add x y => exact ⟨_, rfl, rfl⟩
  | unimplemented w => exact ⟨_, rfl, rfl⟩

/-! ### The iteration and the step read the fetched word alone, and write no memory -/

/-- R82: the fetched word is the only memory access of an iteration. -/
theorem iteration_setMem {s : State} {m : Memory}
    (hw : m.read16 s.pc.toNat = s.mem.read16 s.pc.toNat) :
    ∃ u, iteration s = .next u ∧ iteration (s.setMem m) = .next (u.setMem m) := by
  have hfault : fetchFault (s.setMem m) = fetchFault s := rfl
  have hword : fetchWord (s.setMem m) = fetchWord s := hw
  simp only [iteration, hfault, hword]
  cases fetchFault s with
  | some f => exact ⟨_, rfl, rfl⟩
  | none => exact exec_setMem (decodeWord (fetchWord s)) (advance s) m

theorem step_sameOutcome_setMem {s : State} {m : Memory}
    (hw : m.read16 s.pc.toNat = s.mem.read16 s.pc.toNat) :
    SameOutcome AgreeButMemory (step s) (step (s.setMem m)) := by
  simp only [step, setMem_status]
  cases s.status with
  | running =>
    obtain ⟨u, hu, hu'⟩ := iteration_setMem hw
    simp only [hu, hu']
    exact agreeButMemory_setMem u m
  | halted => exact agreeButMemory_setMem s m
  | faulted f => exact rfl

/-- R41: no step writes memory. An iteration commutes with replacing memory by the memory that is there,
so its result holds that memory. -/
theorem step_mem {s t : State} (hs : step s = .next t) : t.mem = s.mem := by
  rcases step_cases s with ⟨-, h⟩ | ⟨-, h⟩ | ⟨f, -, h⟩
  · obtain ⟨u, -, hu⟩ := iteration_setMem (s := s) (m := s.mem) rfl
    have ht : Host.Outcome.next t = .next (u.setMem s.mem) := hs.symm.trans (h.trans hu)
    injection ht with ht
    rw [ht, setMem_mem]
  · rw [h] at hs
    injection hs with hs
    rw [hs]
  · rw [h] at hs
    cases hs

/-! ### The obligations -/

/-- Settles O12: a state that differs in memory only is `s.setMem` of the other memory, so the first clause
is `step_sameOutcome_setMem`; the word dispatched is that of `step_of_fetchable`. -/
theorem anIterationReadsOnlyTheFetchedWord : Obligations.AnIterationReadsOnlyTheFetchedWord := by
  refine ⟨fun s t h hhi hlo => ?_, fun s t => step_mem, fun s => step_of_fetchable⟩
  rw [eq_setMem_of_agreeButMemory h]
  exact step_sameOutcome_setMem (read16_congr hhi.symm hlo.symm)

/-- Settles O11: the two bytes at the counter decode to the instruction that `step_of_fetchable` runs, and
the advance is that of `advance_toNat`. -/
theorem stepRunsTheDecodedInstructionAfterTheAdvance :
    Obligations.StepRunsTheDecodedInstructionAfterTheAdvance := by
  intro s i hr hle heven hd
  rw [decodeBytes_pair] at hd
  obtain rfl : decodeWord (s.mem.read16 s.pc.toNat) = i := by
    injection hd with hd
    exact congrArg Prod.fst hd
  have hadv : (s.pc + 2).toNat = s.pc.toNat + 2 := advance_toNat hle
  exact ⟨decodeWord_wellFormed _, step_of_fetchable hr hle heven, hadv, by omega⟩

end Machine

end Sys2Proof
end

section
/-! Proofs about ADD (42_arithmetic.md R100): its encoded word, the 8-bit sum and the carry as numbers, and
each register after its two writes. -/

namespace Sys2Proof

/-! ### The word `0x8xy4` (R64) -/

theorem encode_add_toNat (x y : RegIdx) :
    (encode (.add x y)).toNat = 0x8004 + x.val * 2 ^ 8 + y.val * 2 ^ 4 := by
  revert x y; decide

theorem matchesAdd_encode_add (x y : RegIdx) : matchesAdd (encode (.add x y)) = true :=
  Laws.MatchesTableRow.add x y rfl

@[simp] theorem regIndex_fieldX_encode_add (x y : RegIdx) :
    regIndex (fieldX (encode (.add x y))) = x := by
  apply Fin.ext
  change (fieldX (encode (.add x y))).toNat = x.val
  have hx : x.val < 16 := x.isLt
  have hy : y.val < 16 := y.isLt
  rw [fieldX_toNat, encode_add_toNat]
  omega

@[simp] theorem regIndex_fieldY_encode_add (x y : RegIdx) :
    regIndex (fieldY (encode (.add x y))) = y := by
  apply Fin.ext
  change (fieldY (encode (.add x y))).toNat = y.val
  have hx : x.val < 16 := x.isLt
  have hy : y.val < 16 := y.isLt
  rw [fieldY_toNat, encode_add_toNat]
  omega

theorem decodeWord_encode_add (x y : RegIdx) : decodeWord (encode (.add x y)) = .add x y := by
  obtain ⟨hc, hd⟩ := (matchesAdd_iff _).mp (matchesAdd_encode_add x y)
  rw [decodeWord_add hc hd, regIndex_fieldX_encode_add, regIndex_fieldY_encode_add]

namespace Machine

/-! ### The sum and the carry as numbers (R100) -/

@[simp] theorem wrappingSum_toNat (a b : Byte) :
    (wrappingSum a b).toNat = (a.toNat + b.toNat) % 256 :=
  (BitVec.toNat_ofNat _ _).trans (Nat.mod_mod _ _)

@[simp] theorem carryFlag_toNat (a b : Byte) :
    (carryFlag a b).toNat = if a.toNat + b.toNat > 255 then 1 else 0 :=
  apply_ite BitVec.toNat _ _ _

/-! ### The registers after the two writes of ADD, VF last (R100, D5) -/

theorem exec_add (x y : RegIdx) (s : State) :
    exec (.add x y) s = .next ((s.writeReg x (wrappingSum (s.readReg x) (s.readReg y))).writeReg
      flagIdx (carryFlag (s.readReg x) (s.readReg y))) := rfl

theorem readReg_writeReg_same (s : State) (i : RegIdx) (v : Byte) : (s.writeReg i v).readReg i = v := by
  rw [readReg_writeReg, if_pos rfl]

theorem readReg_writeReg_other {i j : RegIdx} (h : i ≠ j) (s : State) (v : Byte) :
    (s.writeReg j v).readReg i = s.readReg i := by
  rw [readReg_writeReg, if_neg h.symm]

/-- With `x = 15` the second write hides the first; any other `V[x]` keeps it. -/
theorem readReg_dest_of_ne_flag {x : RegIdx} (hx : x ≠ flagIdx) (s : State) (v c : Byte) :
    ((s.writeReg x v).writeReg flagIdx c).readReg x = v := by
  rw [readReg_writeReg_other hx, readReg_writeReg_same]

theorem readReg_of_ne_dest_of_ne_flag {x i : RegIdx} (hx : i ≠ x) (hf : i ≠ flagIdx) (s : State)
    (v c : Byte) : ((s.writeReg x v).writeReg flagIdx c).readReg i = s.readReg i := by
  rw [readReg_writeReg_other hf, readReg_writeReg_other hx]

/-- R100 for every state and both operands: the sum, the carry and the frame. -/
theorem exec_add_sum_carry_frame (s : State) (x y : RegIdx) : ∃ t, exec (.add x y) s = .next t ∧
    (x ≠ flagIdx → (t.readReg x).toNat = ((s.readReg x).toNat + (s.readReg y).toNat) % 256) ∧
    (t.readReg flagIdx).toNat = (if (s.readReg x).toNat + (s.readReg y).toNat > 255 then 1 else 0) ∧
    (∀ i, i ≠ x → i ≠ flagIdx → t.readReg i = s.readReg i) ∧
    t.pc = s.pc ∧ t.sp = s.sp ∧ (∀ i, t.stack.get i = s.stack.get i) ∧
    (∀ a, t.mem.read a = s.mem.read a) ∧ t.status = s.status := by
  refine ⟨_, exec_add x y s, fun hx => ?_, ?_, fun i hx hf => ?_, rfl, rfl, fun _ => rfl,
    fun _ => rfl, rfl⟩
  · rw [readReg_dest_of_ne_flag hx, wrappingSum_toNat]
  · rw [readReg_writeReg_same, carryFlag_toNat]
  · exact readReg_of_ne_dest_of_ne_flag hx hf s _ _

/-! ### The obligations -/

/-- Settles O20: the encoded word decodes back, the meaning is `exec_add_sum_carry_frame`, and the example
is its instance at `V0 = 250`, `V1 = 10`. -/
theorem addGivesTheWrappedSumAndTheCarry : Obligations.AddGivesTheWrappedSumAndTheCarry := by
  refine ⟨fun x y => ⟨matchesAdd_encode_add x y, decodeWord_encode_add x y⟩,
    exec_add_sum_carry_frame, fun s h0 h1 => ?_⟩
  obtain ⟨t, ht, hsum, hcarry, -⟩ := exec_add_sum_carry_frame s 0 1
  rw [h0, h1] at hsum hcarry
  exact ⟨t, ht, BitVec.eq_of_toNat_eq (hsum (by decide)), BitVec.eq_of_toNat_eq hcarry⟩

end Machine

end Sys2Proof
end

section
/-! Proofs about the host's commands (45_host_interface.md R112 to R117): the answer of each command on each
side of its check, from which the obligations follow by the rules of the state and of memory. -/

namespace Sys2Proof.Machine

/-! ### The register commands (R112, R113) -/

theorem hostCommand_writeRegister (i : RegIdx) (v : Byte) (s : State) :
    hostCommand (.writeRegister i.val v) s = (s.writeReg i v, .ok) :=
  dif_pos i.isLt

theorem hostCommand_writeRegister_of_ge {i : Nat} (hi : i ≥ Config.NREGS) (v : Byte) (s : State) :
    hostCommand (.writeRegister i v) s = (s, .error .invalidRegister) :=
  dif_neg (Nat.not_lt.mpr hi)

theorem hostCommand_readRegister (i : RegIdx) (s : State) :
    hostCommand (.readRegister i.val) s = (s, .register (s.readReg i)) :=
  dif_pos i.isLt

theorem hostCommand_readRegister_of_ge {i : Nat} (hi : i ≥ Config.NREGS) (s : State) :
    hostCommand (.readRegister i) s = (s, .error .invalidRegister) :=
  dif_neg (Nat.not_lt.mpr hi)

/-! ### The counter commands (R114, R115) -/

theorem hostCommand_setProgramCounter_of_even {v : Nat} (hv : v < Config.MEM_SIZE) (heven : v % 2 = 0)
    (s : State) : hostCommand (.setProgramCounter v) s = (s.setPc (BitVec.ofNat 16 v), .ok) :=
  if_neg (by omega)

theorem hostCommand_setProgramCounter_of_ge_or_odd {v : Nat} (hv : v ≥ Config.MEM_SIZE ∨ v % 2 = 1)
    (s : State) : hostCommand (.setProgramCounter v) s = (s, .error .invalidProgramCounter) :=
  if_pos hv

theorem hostCommand_readProgramCounter (s : State) :
    hostCommand .readProgramCounter s = (s, .counter s.pc) := rfl

/-- An address fits the counter (R24). -/
theorem counter_ofNat_toNat {v : Nat} (hv : v < Config.MEM_SIZE) : (BitVec.ofNat 16 v).toNat = v :=
  (BitVec.toNat_ofNat v 16).trans (Nat.mod_eq_of_lt (Nat.lt_trans hv (by decide)))

/-! ### The instruction commands (R116, R117) -/

theorem hostCommand_readInstruction_of_gt {a : Nat} (ha : a > Config.LAST_WORD) (s : State) :
    hostCommand (.readInstruction a) s = (s, .error .invalidAddress) :=
  if_pos ha

/-- R45: a word read where a word was just written is that word. -/
theorem read16_write16_same {a : Nat} (w : Word) {m : Memory} (ha : a ≤ Config.LAST_WORD)
    (hm : m.wf = true) : (m.write16 a w).read16 a = w := by
  rw [Memory.read16, read_write16_high w ha hm, read_write16_low w ha hm, wordOfBytes_bytes]

/-! ### The obligations -/

/-- Settles O32: in range the commands are `writeReg` and `readReg`, whose two read rules and frame give
the first clause; the last clause is the instance at VF. -/
theorem registerCommandsWriteAndReadOneRegister :
    Obligations.RegisterCommandsWriteAndReadOneRegister := by
  refine ⟨fun s i v => ?_, fun s i v hi => ?_, fun s i => hostCommand_readRegister i s, fun s => ?_⟩
  · have hread := hostCommand_readRegister i (s.writeReg i v)
    rw [readReg_writeReg_same] at hread
    exact ⟨_, hostCommand_writeRegister i v s, readReg_writeReg_same s i v,
      fun j hj => readReg_writeReg_other hj s v, rfl, rfl, rfl, rfl, rfl, hread⟩
  · exact ⟨hostCommand_writeRegister_of_ge hi v s, hostCommand_readRegister_of_ge hi s⟩
  · have hwrite : hostCommand (.writeRegister 15 7) s = (s.writeReg 15 7, .ok) :=
      hostCommand_writeRegister 15 7 s
    rw [hwrite]
    exact ⟨hostCommand_writeRegister_of_ge (le_refl 16) 7 s, readReg_writeReg_same s 15 7⟩

/-- Settles O33: an accepted set is `setPc`, which a read returns, and the value survives in 16 bits. -/
theorem counterCommandsAcceptEvenAddressesInMemory :
    Obligations.CounterCommandsAcceptEvenAddressesInMemory :=
  ⟨fun s _ hv heven => ⟨_, hostCommand_setProgramCounter_of_even hv heven s, counter_ofNat_toNat hv,
      rfl, rfl, rfl, rfl, rfl, hostCommand_readProgramCounter _⟩,
    fun s _ hv => hostCommand_setProgramCounter_of_ge_or_odd hv s,
    hostCommand_readProgramCounter⟩

/-- Settles O35: the read after a write is `read16` of the memory that `write16` left, and the memory of a
new instance reads as zero everywhere. -/
theorem readInstructionReturnsTheWordLastWritten :
    Obligations.ReadInstructionReturnsTheWordLastWritten := by
  refine ⟨fun s a ha => hostCommand_readInstruction_of_le ha s,
    fun s a ha => hostCommand_readInstruction_of_gt ha s, fun s a w hm ha => ?_, ?_⟩
  · rw [hostCommand_writeInstruction_of_le ha, hostCommand_readInstruction_of_le ha, setMem_mem,
      read16_write16_same w ha hm]
  · have hzero : construct.mem.read16 0x100 = 0x0000 :=
      congrArg₂ wordOfBytes (reset_mem_read 0x100) (reset_mem_read 0x101)
    rw [hostCommand_readInstruction_of_le (by decide), hzero]

end Sys2Proof.Machine
end

section
/-! Proofs about several instances (45_host_interface.md R122): a command on instance `k` is a list update
at `k`, and a construction is an append. -/

namespace Sys2Proof.Machine

theorem commandInstance_of_none {all : Instances} {k : Nat} (h : all[k]? = none) (c : Command) :
    commandInstance k c all = (all, none) := by
  rw [commandInstance, h]

theorem commandInstance_of_some {all : Instances} {k : Nat} {s : State} (h : all[k]? = some s)
    (c : Command) :
    commandInstance k c all = (all.set k (hostCommand c s).1, some (hostCommand c s).2) := by
  rw [commandInstance, h]

/-- R122: a command on instance `k` leaves every other as it is, whether or not there is a `k`. -/
theorem commandInstance_other {j k : Nat} (hjk : j ≠ k) (c : Command) (all : Instances) :
    (commandInstance k c all).1[j]? = all[j]? := by
  cases h : all[k]? with
  | none => rw [commandInstance_of_none h]
  | some s => rw [commandInstance_of_some h, List.getElem?_set_ne hjk.symm]

theorem commandInstance_same {all : Instances} {k : Nat} {s : State} (h : all[k]? = some s)
    (c : Command) : (commandInstance k c all).1[k]? = some (hostCommand c s).1 := by
  obtain ⟨hk, -⟩ := List.getElem?_eq_some_iff.mp h
  rw [commandInstance_of_some h, List.getElem?_set_self hk]

theorem constructInstance_old {all : Instances} {k : Nat} {s : State} (h : all[k]? = some s) :
    (constructInstance all)[k]? = some s := by
  obtain ⟨hk, -⟩ := List.getElem?_eq_some_iff.mp h
  rw [constructInstance, List.getElem?_append_left hk, h]

theorem constructInstance_new (all : Instances) :
    (constructInstance all)[all.length]? = some State.reset :=
  List.getElem?_concat_length

/-- Settles O38: one lemma for the other instances, one for the instance commanded, and two for
construction. -/
theorem instancesAreIndependent : Obligations.InstancesAreIndependent :=
  ⟨fun all _ _ c hjk => commandInstance_other hjk c all,
    fun _ _ c _ h => ⟨commandInstance_same h c, congrArg Prod.snd (commandInstance_of_some h c)⟩,
    fun _ _ _ => constructInstance_old,
    constructInstance_new⟩

end Sys2Proof.Machine
end

section
/-! Proofs about the recoverable errors (60_exceptions.md R131): the table's cause column as a predicate on
commands, and that a command is answered with an error exactly where its cause holds. -/

namespace Sys2Proof.Machine

/-- R131, the columns "raised by" and "cause": the commands that the error answers. -/
def ErrorCause : HostError → Command → Prop
  | .invalidRegister, c =>
    (∃ i v, c = .writeRegister i v ∧ i ≥ Config.NREGS) ∨ (∃ i, c = .readRegister i ∧ i ≥ Config.NREGS)
  | .invalidProgramCounter, c => ∃ v, c = .setProgramCounter v ∧ (v ≥ Config.MEM_SIZE ∨ v % 2 = 1)
  | .invalidAddress, c =>
    (∃ a w, c = .writeInstruction a w ∧ a > Config.LAST_WORD) ∨
    (∃ a, c = .readInstruction a ∧ a > Config.LAST_WORD)

/-- R131: where the cause holds the command is answered with the error and the state is unchanged. -/
theorem hostCommand_of_errorCause {e : HostError} {c : Command} (h : ErrorCause e c) (s : State) :
    hostCommand c s = (s, .error e) := by
  cases e with
  | invalidRegister =>
    obtain ⟨i, v, rfl, hi⟩ | ⟨i, rfl, hi⟩ := h
    · exact hostCommand_writeRegister_of_ge hi v s
    · exact hostCommand_readRegister_of_ge hi s
  | invalidProgramCounter =>
    obtain ⟨v, rfl, hv⟩ := h
    exact hostCommand_setProgramCounter_of_ge_or_odd hv s
  | invalidAddress =>
    obtain ⟨a, w, rfl, ha⟩ | ⟨a, rfl, ha⟩ := h
    · exact hostCommand_writeInstruction_of_gt ha w s
    · exact hostCommand_readInstruction_of_gt ha s

theorem reply_eq_error_of_hostCommand_eq {c : Command} {s t : State} {r : Reply} {e : HostError}
    (heq : hostCommand c s = (t, r)) (h : (hostCommand c s).2 = .error e) : r = .error e :=
  (congrArg Prod.snd heq).symm.trans h

/-- R131: nothing but its cause brings an error. On the good side of its check each command's answer is
another one; on the bad side the answer is the error of its row. -/
theorem errorCause_of_reply {e : HostError} {c : Command} {s : State}
    (h : (hostCommand c s).2 = .error e) : ErrorCause e c := by
  cases c with
  | writeRegister i v =>
    by_cases hi : i < Config.NREGS
    · cases reply_eq_error_of_hostCommand_eq (hostCommand_writeRegister ⟨i, hi⟩ v s) h
    · have hi := Nat.le_of_not_lt hi
      cases reply_eq_error_of_hostCommand_eq (hostCommand_writeRegister_of_ge hi v s) h
      exact .inl ⟨i, v, rfl, hi⟩
  | readRegister i =>
    by_cases hi : i < Config.NREGS
    · cases reply_eq_error_of_hostCommand_eq (hostCommand_readRegister ⟨i, hi⟩ s) h
    · have hi := Nat.le_of_not_lt hi
      cases reply_eq_error_of_hostCommand_eq (hostCommand_readRegister_of_ge hi s) h
      exact .inr ⟨i, rfl, hi⟩
  | setProgramCounter v =>
    by_cases hv : v ≥ Config.MEM_SIZE ∨ v % 2 = 1
    · cases reply_eq_error_of_hostCommand_eq (hostCommand_setProgramCounter_of_ge_or_odd hv s) h
      exact ⟨v, rfl, hv⟩
    · have hlt : v < Config.MEM_SIZE := by omega
      have heven : v % 2 = 0 := by omega
      cases reply_eq_error_of_hostCommand_eq (hostCommand_setProgramCounter_of_even hlt heven s) h
  | readProgramCounter =>
    cases reply_eq_error_of_hostCommand_eq (hostCommand_readProgramCounter s) h
  | writeInstruction a w =>
    by_cases ha : a > Config.LAST_WORD
    · cases reply_eq_error_of_hostCommand_eq (hostCommand_writeInstruction_of_gt ha w s) h
      exact .inl ⟨a, w, rfl, ha⟩
    · have ha := Nat.le_of_not_gt ha
      cases reply_eq_error_of_hostCommand_eq (hostCommand_writeInstruction_of_le ha w s) h
  | readInstruction a =>
    by_cases ha : a > Config.LAST_WORD
    · cases reply_eq_error_of_hostCommand_eq (hostCommand_readInstruction_of_gt ha s) h
      exact .inr ⟨a, rfl, ha⟩
    · have ha := Nat.le_of_not_gt ha
      cases reply_eq_error_of_hostCommand_eq (hostCommand_readInstruction_of_le ha s) h
  | run =>
    have hrun : hostCommand .run s = ((run s).1, .run (run s).2) := rfl
    cases reply_eq_error_of_hostCommand_eq hrun h

theorem hostCommand_reply_eq_error_iff (e : HostError) (c : Command) (s : State) :
    (hostCommand c s).2 = .error e ↔ ErrorCause e c :=
  ⟨errorCause_of_reply, fun h => congrArg Prod.snd (hostCommand_of_errorCause h s)⟩

/-- R131: an error leaves the state as it was. -/
theorem hostCommand_state_of_error {e : HostError} {c : Command} {s : State}
    (h : (hostCommand c s).2 = .error e) : (hostCommand c s).1 = s :=
  congrArg Prod.fst (hostCommand_of_errorCause (errorCause_of_reply h) s)

/-- Settles O31: the three rows are the equivalence with `ErrorCause`, row by row, and the codes are
`replyCode`'s equations. -/
theorem recoverableErrorsHaveTheirCauseAndChangeNothing :
    Obligations.RecoverableErrorsHaveTheirCauseAndChangeNothing :=
  ⟨fun c s => ⟨hostCommand_reply_eq_error_iff .invalidRegister c s,
      hostCommand_reply_eq_error_iff .invalidProgramCounter c s,
      hostCommand_reply_eq_error_iff .invalidAddress c s,
      fun _ => hostCommand_state_of_error⟩,
    rfl, rfl, rfl, rfl⟩

end Sys2Proof.Machine
end

section
/-! Proofs about the round trip of the encoding (30_encoding.md R60 to R70): decode after encode, encode
after decode, the number of words of each row, and the assembly lines. -/

namespace Sys2Proof

/-! ### The word `0x2nnn` (R64) -/

theorem encode_call_toNat (nnn : Addr) : (encode (.call nnn)).toNat = 0x2000 + nnn.toNat := by
  have hlt : nnn.toNat < 2 ^ 13 := Nat.lt_trans nnn.isLt (by decide)
  have hzext : (nnn.setWidth 16).toNat = nnn.toNat := BitVec.toNat_setWidth_of_le (by decide)
  change (0x2000#16 ||| nnn.setWidth 16).toNat = _
  rw [BitVec.toNat_or, hzext]
  exact (Nat.two_pow_add_eq_or_of_lt hlt 1).symm

theorem fieldNNN_encode_call (nnn : Addr) : fieldNNN (encode (.call nnn)) = nnn := by
  have := nnn.isLt
  apply BitVec.eq_of_toNat_eq
  rw [fieldNNN_toNat, encode_call_toNat]
  omega

/-! ### Decode and encode undo each other -/

/-- R69, R85: an encoded instruction decodes to itself. Each row's word passes the row's condition, and the
fields that the decoder reads there are the operands. -/
theorem decodeWord_encode {i : Instr} (h : i.wellFormed = true) : decodeWord (encode i) = i := by
  cases i with
  | halt => exact decodeWord_haltWord
  | ret => exact decodeWord_retWord
  | call nnn =>
    have hc := (matchesCall_iff _).mp (Laws.MatchesTableRow.call nnn h)
    rw [decodeWord_call hc, fieldNNN_encode_call]
  | add x y => exact decodeWord_encode_add x y
  | unimplemented w => exact decodeWord_unimplemented h

/-- The same over bytes, with any bytes behind (R60). -/
theorem decodeBytes_encodeBytes_append {i : Instr} (h : i.wellFormed = true) (rest : List Byte) :
    decodeBytes (encodeBytes i ++ rest) = .ok (i, rest) :=
  (decodeBytes_word (encode i) rest).trans (by rw [decodeWord_encode h])

/-- A word of the ADD row is the encoding of its own `x` and `y`, whose fields with `c` and `d` are the
whole word. -/
theorem encode_add_fields {w : Word} (hc : fieldC w = 0x8#4) (hd : fieldD w = 0x4#4) :
    encode (.add (regIndex (fieldX w)) (regIndex (fieldY w))) = w := by
  have hc := congrArg BitVec.toNat hc
  have hd := congrArg BitVec.toNat hd
  rw [fieldC_toNat] at hc
  rw [fieldD_toNat] at hd
  apply BitVec.eq_of_toNat_eq
  rw [encode_add_toNat]
  change 0x8004 + (fieldX w).toNat * 2 ^ 8 + (fieldY w).toNat * 2 ^ 4 = _
  rw [fieldX_toNat, fieldY_toNat]
  simp only [BitVec.toNat_ofNat] at hc hd
  omega

theorem encode_call_fieldNNN {w : Word} (hc : fieldC w = 0x2#4) :
    encode (.call (fieldNNN w)) = w := by
  have hc := congrArg BitVec.toNat hc
  rw [fieldC_toNat] at hc
  apply BitVec.eq_of_toNat_eq
  rw [encode_call_toNat, fieldNNN_toNat]
  simp only [BitVec.toNat_ofNat] at hc
  omega

/-- R63, R69: every word is the encoding of what it decodes to. -/
theorem encode_decodeWord (w : Word) : encode (decodeWord w) = w := by
  rcases decodeWord_cases w with ⟨h, hd⟩ | ⟨h, hd⟩ | ⟨hc, hd⟩ | ⟨hc, h4, hd⟩ | ⟨-, -, -, -, hd⟩ <;>
    rw [hd]
  · exact h.symm
  · exact h.symm
  · exact encode_call_fieldNNN hc
  · exact encode_add_fields hc h4
  · rfl

/-! ### How many words each row has (R65) -/

theorem card_bitVec (n : Nat) : (Finset.univ : Finset (BitVec n)).card = 2 ^ n :=
  (Fintype.card_congr BitVec.equivFin.toEquiv).trans (Fintype.card_fin _)

theorem card_registerPairs : (Finset.univ : Finset (RegIdx × RegIdx)).card = 256 :=
  (Fintype.card_prod _ _).trans (congrArg₂ (· * ·) (Fintype.card_fin 16) (Fintype.card_fin 16))

/-- Different instructions have different words. -/
theorem encode_injective {i j : Instr} (hi : i.wellFormed = true) (hj : j.wellFormed = true)
    (h : encode i = encode j) : i = j := by
  rw [← decodeWord_encode hi, h, decodeWord_encode hj]

/-- A word matches a row exactly where it is the encoding of an instruction of that row: the row has as
many words as operands. -/
theorem card_row {α : Type} [Fintype α] {p : Word → Bool} (f : α → Instr)
    (hwf : ∀ a, (f a).wellFormed = true) (hf : Function.Injective f)
    (hp : ∀ w, p w = true ↔ ∃ a, encode (f a) = w) :
    (Finset.univ.filter fun w : Word => p w = true).card = (Finset.univ : Finset α).card := by
  have himage : (Finset.univ.filter fun w : Word => p w = true) =
      Finset.univ.image fun a => encode (f a) := by
    ext w
    simp [hp]
  rw [himage]
  exact Finset.card_image_of_injective _ fun a b h => hf (encode_injective (hwf a) (hwf b) h)

theorem matchesCall_iff_encode (w : Word) :
    matchesCall w = true ↔ ∃ nnn, encode (.call nnn) = w := by
  refine ⟨fun h => ⟨_, encode_call_fieldNNN ((matchesCall_iff w).mp h)⟩, ?_⟩
  rintro ⟨nnn, rfl⟩
  exact Laws.MatchesTableRow.call nnn rfl

theorem matchesAdd_iff_encode (w : Word) :
    matchesAdd w = true ↔ ∃ r : RegIdx × RegIdx, encode (.add r.1 r.2) = w := by
  refine ⟨fun h => ?_, ?_⟩
  · obtain ⟨hc, hd⟩ := (matchesAdd_iff w).mp h
    exact ⟨(_, _), encode_add_fields hc hd⟩
  · rintro ⟨r, rfl⟩
    exact matchesAdd_encode_add r.1 r.2

theorem card_matchesHalt : (Finset.univ.filter fun w : Word => matchesHalt w = true).card = 1 := by
  simp only [matchesHalt_iff, Finset.filter_eq', Finset.mem_univ, if_true, Finset.card_singleton]

theorem card_matchesRet : (Finset.univ.filter fun w : Word => matchesRet w = true).card = 1 := by
  simp only [matchesRet_iff, Finset.filter_eq', Finset.mem_univ, if_true, Finset.card_singleton]

theorem card_matchesCall :
    (Finset.univ.filter fun w : Word => matchesCall w = true).card = 4096 :=
  (card_row Instr.call (fun _ => rfl) (fun _ _ => Instr.call.inj) matchesCall_iff_encode).trans
    (card_bitVec 12)

theorem card_matchesAdd : (Finset.univ.filter fun w : Word => matchesAdd w = true).card = 256 :=
  (card_row (fun r : RegIdx × RegIdx => Instr.add r.1 r.2) (fun _ => rfl)
    (fun _ _ h => Prod.ext_iff.mpr (Instr.add.inj h)) matchesAdd_iff_encode).trans
    card_registerPairs

/-- R65: no word matches two rows, since each row decodes to an instruction of its own. -/
theorem rows_disjoint (w : Word) :
    ¬(matchesHalt w = true ∧ matchesRet w = true) ∧ ¬(matchesHalt w = true ∧ matchesCall w = true) ∧
    ¬(matchesHalt w = true ∧ matchesAdd w = true) ∧ ¬(matchesRet w = true ∧ matchesCall w = true) ∧
    ¬(matchesRet w = true ∧ matchesAdd w = true) ∧ ¬(matchesCall w = true ∧ matchesAdd w = true) := by
  simp only [matchesHalt_iff, matchesRet_iff, matchesCall_iff, matchesAdd_iff]
  refine ⟨?_, ?_, ?_, ?_, ?_, ?_⟩
  · rintro ⟨rfl, h⟩; exact absurd h (by decide)
  · rintro ⟨rfl, h⟩; exact absurd h (by decide)
  · rintro ⟨rfl, h, -⟩; exact absurd h (by decide)
  · rintro ⟨rfl, h⟩; exact absurd h (by decide)
  · rintro ⟨rfl, h, -⟩; exact absurd h (by decide)
  · rintro ⟨h, h', -⟩; exact absurd (h.symm.trans h') (by decide)

/-- A word of some row is a word of no other, so the sizes of the rows add up. -/
theorem card_filter_or_of_disjoint {p q : Word → Prop} [DecidablePred p] [DecidablePred q]
    (h : ∀ w, ¬(p w ∧ q w)) :
    (Finset.univ.filter fun w => p w ∨ q w).card =
      (Finset.univ.filter p).card + (Finset.univ.filter q).card := by
  rw [Finset.filter_or, Finset.card_union_of_disjoint]
  exact Finset.disjoint_filter.mpr fun w _ hp hq => h w ⟨hp, hq⟩

theorem not_matchesNoRow_iff (w : Word) :
    ¬matchesNoRow w = true ↔
      matchesHalt w = true ∨ matchesRet w = true ∨ matchesCall w = true ∨ matchesAdd w = true := by
  simp only [matchesNoRow, Bool.and_eq_true, Bool.not_eq_true', ← Bool.not_eq_true, not_and_or,
    not_not, or_assoc]

theorem card_matchesSomeRow :
    (Finset.univ.filter fun w : Word => ¬matchesNoRow w = true).card = 4354 := by
  simp only [not_matchesNoRow_iff]
  rw [card_filter_or_of_disjoint, card_filter_or_of_disjoint, card_filter_or_of_disjoint,
    card_matchesHalt, card_matchesRet, card_matchesCall, card_matchesAdd]
  · intro w h
    obtain ⟨-, -, -, -, -, hca⟩ := rows_disjoint w
    exact hca h
  · rintro w ⟨hr, h⟩
    obtain ⟨-, -, -, hrc, hra, -⟩ := rows_disjoint w
    exact h.elim (fun hc => hrc ⟨hr, hc⟩) fun ha => hra ⟨hr, ha⟩
  · rintro w ⟨h0, h⟩
    obtain ⟨hhr, hhc, hha, -⟩ := rows_disjoint w
    exact h.elim (fun hr => hhr ⟨h0, hr⟩) fun h =>
      h.elim (fun hc => hhc ⟨h0, hc⟩) fun ha => hha ⟨h0, ha⟩

/-- Stated for any check on words: of a check that computes, the kernel would count the words one by one. -/
theorem card_filter_of_card_filter_not {p : Word → Prop} [DecidablePred p] {n : Nat}
    (h : (Finset.univ.filter fun w => ¬p w).card = n) :
    (Finset.univ.filter p).card = 2 ^ 16 - n := by
  rw [← card_bitVec 16, ← h]
  exact Nat.eq_sub_of_add_eq (Finset.card_filter_add_card_filter_not p)

/-- R65: the words left to the catch-all row. -/
theorem card_matchesNoRow :
    (Finset.univ.filter fun w : Word => matchesNoRow w = true).card = 61182 :=
  card_filter_of_card_filter_not card_matchesSomeRow

namespace Machine

/-! ### The assembly lines (R69) -/

theorem assemble_call {a : Nat} (ha : a ≤ 0xFFF) :
    assemble (.call a) = some (encode (.call (BitVec.ofNat 12 a))) := by
  have hzext : (BitVec.ofNat 12 a).setWidth 16 = BitVec.ofNat 16 a := by
    apply BitVec.eq_of_toNat_eq
    simp only [BitVec.toNat_setWidth, BitVec.toNat_ofNat]
    omega
  rw [assemble, if_pos ha, encode, hzext]

theorem assemble_add (x y : RegIdx) :
    assemble (.add x.val y.val) = some (encode (.add x y)) :=
  if_pos ⟨x.isLt, y.isLt⟩

theorem assemble_add_of_gt {x y : Nat} (h : 15 < x ∨ 15 < y) : assemble (.add x y) = none :=
  if_neg (by simp only [Config.NREGS]; omega)

theorem assemble_word (w : Word) : assemble (.word w.toNat) = some w := by
  rw [assemble, if_pos w.isLt, BitVec.ofNat_toNat, BitVec.setWidth_eq]

/-! ### The obligations -/

/-- Settles O1, by the round trip over words and over bytes. -/
theorem decodingAnEncodedInstructionGivesItBack :
    Obligations.DecodingAnEncodedInstructionGivesItBack :=
  fun _ rest h => ⟨decodeWord_encode h, decodeBytes_encodeBytes_append h rest⟩

/-- Settles O2: the decoder answers well-formed instructions only, and each encodes to its word. -/
theorem everyWordIsTheEncodingOfWhatItDecodesTo :
    Obligations.EveryWordIsTheEncodingOfWhatItDecodesTo :=
  fun w => ⟨decodeWord_wellFormed w, encode_decodeWord w⟩

/-- Settles O5: a row of operands has as many words as operands, and the catch-all has the rest. -/
theorem encodingSpaceIsCountedAndDisjoint : Obligations.EncodingSpaceIsCountedAndDisjoint :=
  ⟨rows_disjoint, card_matchesHalt, card_matchesRet, card_matchesCall, card_matchesAdd,
    card_matchesNoRow⟩

/-- Settles O6, by the equation of the decoder on each word's row. -/
theorem wordsOfTheTestVectorsDecodeAsWritten : Obligations.WordsOfTheTestVectorsDecodeAsWritten :=
  ⟨decodeWord_haltWord, decodeWord_retWord, decodeWord_call rfl, decodeWord_call rfl,
    decodeWord_add rfl rfl, decodeWord_add rfl rfl, decodeWord_unimplemented rfl,
    decodeWord_unimplemented rfl, decodeWord_unimplemented rfl⟩

/-- Settles O7: an accepted line is the encoding of its instruction, which decodes back; the examples are
run as text. -/
theorem assemblyLinesEncodeTheirInstruction : Obligations.AssemblyLinesEncodeTheirInstruction :=
  ⟨⟨_, rfl, decodeWord_haltWord⟩, ⟨_, rfl, decodeWord_retWord⟩,
    fun _ ha => ⟨_, assemble_call ha, decodeWord_encode rfl⟩,
    fun _ ha => if_neg (Nat.not_le.mpr ha),
    fun x y => ⟨_, assemble_add x y, decodeWord_encode rfl⟩,
    fun _ _ => assemble_add_of_gt, assemble_word,
    by decide, by decide, by decide, by decide, by decide, by decide⟩

end Machine

end Sys2Proof
end

section
/-! Proofs about single meanings and single steps (40_fetch_decode_execute.md R81, 41_control_transfer.md R93,
R94): that each answers a next state, what CALL and RET leave, and what no other meaning changes. -/

namespace Sys2Proof.Machine

@[simp] theorem addressOperand_toNat (nnn : Addr) : (addressOperand nnn).toNat = nnn.toNat :=
  BitVec.toNat_setWidth_of_le (by decide)

/-- The entries after a push (R90). -/
theorem stack_get_set (v : Vector Word Config.STACK_DEPTH) {k : Nat} (hk : k < Config.STACK_DEPTH)
    (w : Word) (i : Fin Config.STACK_DEPTH) :
    (v.set k w hk).get i = if k = i.val then w else v.get i := by
  rw [Vector.get_eq_getElem, Vector.getElem_set, Vector.get_eq_getElem]

/-! ### What a meaning answers -/

/-- No meaning faults or is refused. -/
theorem exec_next (i : Instr) (s : State) : ∃ t, exec i s = .next t := by
  obtain ⟨t, ht, -⟩ := exec_setMem i s s.mem
  exact ⟨t, ht⟩

/-- R41: no meaning writes memory. -/
theorem exec_mem {i : Instr} {s t : State} (h : exec i s = .next t) : t.mem = s.mem := by
  obtain ⟨u, -, hu⟩ := exec_setMem i s s.mem
  have ht : Host.Outcome.next t = .next (u.setMem s.mem) := h.symm.trans hu
  injection ht with ht
  rw [ht, setMem_mem]

/-- The inversion lemma of a meaning: the run ends and nothing else changes, or ADD writes registers, or
RET pops, or CALL pushes. -/
theorem exec_cases {i : Instr} {s t : State} (h : exec i s = .next t) :
    (∃ u, u ≠ .running ∧ t = s.setStatus u) ∨
    (∃ x y, i = .add x y ∧
      t = (s.writeReg x (wrappingSum (s.readReg x) (s.readReg y))).writeReg flagIdx
        (carryFlag (s.readReg x) (s.readReg y))) ∨
    (∃ hk : s.sp.val - 1 < Config.STACK_DEPTH, i = .ret ∧ 0 < s.sp.val ∧
      t.pc = s.stack[s.sp.val - 1] ∧ t.sp.val = s.sp.val - 1 ∧ t.stack = s.stack ∧
      t.V = s.V ∧ t.status = s.status) ∨
    (∃ (nnn : Addr) (hk : s.sp.val < Config.STACK_DEPTH), i = .call nnn ∧
      t.pc = addressOperand nnn ∧ t.sp.val = s.sp.val + 1 ∧ t.stack = s.stack.set s.sp.val s.pc hk ∧
      t.V = s.V ∧ t.status = s.status) := by
  cases i with
  | halt =>
    injection h with h
    exact .inl ⟨.halted, nofun, h.symm⟩
  | unimplemented w =>
    injection h with h
    exact .inl ⟨.faulted (.unimplementedOpcode w), nofun, h.symm⟩
  | add x y =>
    injection h with h
    exact .inr (.inl ⟨x, y, rfl, h.symm⟩)
  | ret =>
    have h : execRet s = .next t := h
    rcases execRet_cases s with ⟨-, he⟩ | ⟨hk, u, hpos, he, hpc, hsp, hst, -, hV, hu⟩ <;>
      rw [he] at h <;> injection h with h
    · exact .inl ⟨.faulted .stackUnderflow, nofun, h.symm⟩
    · subst h
      exact .inr (.inr (.inl ⟨hk, rfl, hpos, hpc, hsp, hst, hV, hu⟩))
  | call nnn =>
    have h : execCall nnn s = .next t := h
    rcases execCall_cases nnn s with ⟨-, he⟩ | ⟨hk, u, he, hpc, hsp, hst, -, hV, hu⟩ <;>
      rw [he] at h <;> injection h with h
    · exact .inl ⟨.faulted .stackOverflow, nofun, h.symm⟩
    · subst h
      exact .inr (.inr (.inr ⟨nnn, hk, rfl, hpc, hsp, hst, hV, hu⟩))

/-! ### CALL and RET on each side of their check (R93, R94) -/

theorem exec_ret_of_pos {s : State} {k : Fin Config.STACK_DEPTH} (hk : s.sp.val = k.val + 1) :
    ∃ t, exec .ret s = .next t ∧ t.pc = s.stack.get k ∧ t.sp.val = k.val ∧ t.stack = s.stack ∧
      t.mem = s.mem ∧ t.V = s.V ∧ t.status = s.status := by
  rcases execRet_cases s with ⟨h0, -⟩ | ⟨_, t, -, he, hpc, hsp, hrest⟩
  · omega
  · refine ⟨t, he, ?_, by omega, hrest⟩
    simp only [hpc, hk, Nat.add_sub_cancel, Vector.get_eq_getElem]

theorem exec_ret_of_zero {s : State} (h : s.sp.val = 0) :
    exec .ret s = .next (s.setStatus (.faulted .stackUnderflow)) := by
  rcases execRet_cases s with ⟨-, he⟩ | ⟨_, t, hpos, -⟩
  · exact he
  · omega

theorem exec_call_of_lt (nnn : Addr) {s : State} (h : s.sp.val < Config.STACK_DEPTH) :
    ∃ t, exec (.call nnn) s = .next t ∧ t.pc = addressOperand nnn ∧ t.sp.val = s.sp.val + 1 ∧
      t.stack = s.stack.set s.sp.val s.pc h ∧ t.mem = s.mem ∧ t.V = s.V ∧ t.status = s.status := by
  rcases execCall_cases nnn s with ⟨hfull, -⟩ | ⟨_, t, he, hrest⟩
  · omega
  · exact ⟨t, he, hrest⟩

theorem exec_call_of_full (nnn : Addr) {s : State} (h : s.sp.val = Config.STACK_DEPTH) :
    exec (.call nnn) s = .next (s.setStatus (.faulted .stackOverflow)) := by
  rcases execCall_cases nnn s with ⟨-, he⟩ | ⟨hlt, -⟩
  · exact he
  · omega

/-! ### Steps by status, and the fetch check (R81) -/

theorem step_of_halted {s : State} (h : s.status = .halted) : step s = .next s := by
  simp only [step, h]

theorem step_of_faulted {s : State} {f : Fault} (h : s.status = .faulted f) : step s = .fault f := by
  simp only [step, h]

/-- R133: a fetch fault changes the status alone. -/
theorem step_of_fetchFault {s : State} {f : Fault} (hr : s.status = .running)
    (hf : fetchFault s = some f) : step s = .next (s.setStatus (.faulted f)) := by
  simp only [step, hr, iteration, hf, raise_eq]

theorem fetchFault_of_gt {s : State} (h : s.pc.toNat > Config.LAST_WORD) :
    fetchFault s = some (.fetchOutOfBounds s.pc) :=
  if_pos h

theorem fetchFault_of_odd {s : State} (hle : s.pc.toNat ≤ Config.LAST_WORD)
    (hodd : s.pc.toNat % 2 = 1) : fetchFault s = some (.fetchMisaligned s.pc) :=
  (if_neg (Nat.not_lt.mpr hle)).trans (if_pos hodd)

theorem fetchable_of_fetchFault_eq_none {s : State} (h : fetchFault s = none) :
    s.pc.toNat ≤ Config.LAST_WORD ∧ s.pc.toNat % 2 = 0 := by
  rcases fetchFault_cases s with ⟨-, hf⟩ | ⟨-, -, hf⟩ | ⟨hle, heven, -⟩
  · cases h.symm.trans hf
  · cases h.symm.trans hf
  · exact ⟨hle, heven⟩

/-- A step that is not of a faulted machine answers a next state (logs 1 and 2). -/
theorem step_next {s : State} (h : ∀ f, s.status ≠ .faulted f) : ∃ t, step s = .next t := by
  rcases step_cases s with ⟨-, hs⟩ | ⟨-, hs⟩ | ⟨f, hf, -⟩
  · obtain ⟨t, ht, -⟩ := iteration_setMem (s := s) (m := s.mem) rfl
    exact ⟨t, hs.trans ht⟩
  · exact ⟨s, hs⟩
  · exact absurd hf (h f)

/-! ### The obligations -/

/-- Settles O13, by the fetch check on each side of its two conditions. -/
theorem fetchCheckComesFirstBoundBeforeAlignment :
    Obligations.FetchCheckComesFirstBoundBeforeAlignment :=
  fun _ hr => ⟨fun h => step_of_fetchFault hr (fetchFault_of_gt h),
    fun ⟨hle, hodd⟩ => step_of_fetchFault hr (fetchFault_of_odd hle hodd)⟩

/-- Settles O15, by the status. -/
theorem outsideARunNoIterationHappens : Obligations.OutsideARunNoIterationHappens :=
  fun _ => ⟨step_of_halted, fun _ => step_of_faulted⟩

/-- Settles O16. -/
theorem everyMeaningAnswersANextState : Obligations.EveryMeaningAnswersANextState :=
  ⟨exec_next, fun _ => step_next⟩

/-- Settles O18, by RET on each side of its check. -/
theorem retPopsIntoTheCounter : Obligations.RetPopsIntoTheCounter := by
  refine ⟨fun s k hk => ?_, fun s h => exec_ret_of_zero h⟩
  obtain ⟨t, he, hpc, hsp, hst, hm, hV, hu⟩ := exec_ret_of_pos hk
  refine ⟨t, he, hpc, hsp, fun i => by rw [hst], fun i => ?_, fun a => by rw [hm], hu⟩
  rw [State.readReg, hV, State.readReg]

/-- Settles O19, by CALL on each side of its check and the entries after a push. -/
theorem callPushesTheCounterAndGoesToItsAddress :
    Obligations.CallPushesTheCounterAndGoesToItsAddress := by
  refine ⟨fun s nnn k hk => ?_, fun s nnn h => exec_call_of_full nnn h⟩
  have hlt : s.sp.val < Config.STACK_DEPTH := hk ▸ k.isLt
  obtain ⟨t, he, hpc, hsp, hst, hm, hV, hu⟩ := exec_call_of_lt nnn hlt
  refine ⟨t, he, by rw [hpc, addressOperand_toNat], by rw [hsp, hk], ?_, fun i hi => ?_,
    fun i => by rw [State.readReg, hV, State.readReg], fun a => by rw [hm], hu⟩
  · rw [hst, stack_get_set, if_pos hk]
  · rw [hst, stack_get_set, if_neg fun h => hi (Fin.ext (h.symm.trans hk))]

/-- Settles O24: the four ways of `exec_cases`, in each of which the components that are not named are
equal, so that the premise of a clause about another instruction fails. -/
theorem onlyTheNamedInstructionsChangeEachComponent :
    Obligations.OnlyTheNamedInstructionsChangeEachComponent := by
  intro i s t h
  refine ⟨fun a => by rw [exec_mem h], ?_⟩
  rcases exec_cases h with ⟨u, hu, rfl⟩ | ⟨x, y, rfl, rfl⟩ |
    ⟨-, rfl, -, -, -, hst, hV, hu⟩ | ⟨nnn, -, rfl, -, -, -, hV, hu⟩
  · exact ⟨fun ⟨_, hr⟩ => absurd rfl hr, fun ⟨_, hk⟩ => absurd rfl hk, fun hsp => absurd rfl hsp,
      fun hpc => absurd rfl hpc, fun _ => ⟨rfl, rfl, rfl, rfl, hu⟩⟩
  · exact ⟨fun _ => ⟨x, y, rfl⟩, fun ⟨_, hk⟩ => absurd rfl hk, fun hsp => absurd rfl hsp,
      fun hpc => absurd rfl hpc, fun hu => absurd rfl hu⟩
  · exact ⟨fun ⟨r, hr⟩ => absurd (congrArg (·.get r) hV) hr,
      fun ⟨k, hk⟩ => absurd (congrArg (·.get k) hst) hk, fun _ => .inl rfl, fun _ => .inl rfl,
      fun hne => absurd hu hne⟩
  · exact ⟨fun ⟨r, hr⟩ => absurd (congrArg (·.get r) hV) hr, fun _ => ⟨nnn, rfl⟩,
      fun _ => .inr ⟨nnn, rfl⟩, fun _ => .inr ⟨nnn, rfl⟩, fun hne => absurd hu hne⟩

end Sys2Proof.Machine
end

section
/-! Proofs about the invariant (10_state.md R26, 41_control_transfer.md R93, R94): it holds at reset and every
update, step and host command keeps it, so it holds of every reachable state. -/

namespace Sys2Proof.Machine

/-! ### The updates keep it -/

theorem StateInv.setStatus {s : State} (h : StateInv s) (u : Status) : StateInv (s.setStatus u) :=
  ⟨h.mem_wf, h.pc_le, h.entries⟩

theorem StateInv.setPc {s : State} (h : StateInv s) {t : Word} (ht : t.toNat ≤ Config.MEM_SIZE) :
    StateInv (s.setPc t) :=
  ⟨h.mem_wf, ht, h.entries⟩

theorem StateInv.writeReg {s : State} (h : StateInv s) (i : RegIdx) (v : Byte) :
    StateInv (s.writeReg i v) :=
  ⟨h.mem_wf, h.pc_le, h.entries⟩

theorem StateInv.setMem {s : State} (h : StateInv s) {m : Memory} (hm : m.wf = true) :
    StateInv (s.setMem m) :=
  ⟨hm, h.pc_le, h.entries⟩

/-- R93: RET goes to an entry in use, and those below stay in use. -/
theorem StateInv.popped {s t : State} (h : StateInv s) (hk : s.sp.val - 1 < Config.STACK_DEPTH)
    (hpos : 0 < s.sp.val) (hpc : t.pc = s.stack[s.sp.val - 1]) (hsp : t.sp.val = s.sp.val - 1)
    (hst : t.stack = s.stack) (hm : t.mem = s.mem) : StateInv t := by
  refine ⟨hm ▸ h.mem_wf, ?_, fun i hi => ?_⟩
  · rw [hpc]
    exact (h.entries ⟨_, hk⟩ (Nat.sub_lt hpos Nat.one_pos)).2
  · rw [hst]
    exact h.entries i (by omega)

/-- R94: CALL goes to a 12-bit address and adds an even one, at most `MEM_SIZE`, to those in use. -/
theorem StateInv.pushed {s t : State} (h : StateInv s) {nnn : Addr} {v : Word}
    (hk : s.sp.val < Config.STACK_DEPTH) (hv : v.toNat % 2 = 0 ∧ v.toNat ≤ Config.MEM_SIZE)
    (hpc : t.pc = addressOperand nnn) (hsp : t.sp.val = s.sp.val + 1)
    (hst : t.stack = s.stack.set s.sp.val v hk) (hm : t.mem = s.mem) : StateInv t := by
  refine ⟨hm ▸ h.mem_wf, ?_, fun i hi => ?_⟩
  · rw [hpc, addressOperand_toNat]
    exact Nat.le_of_lt nnn.isLt
  · rw [hst, stack_get_set]
    split
    · exact hv
    · exact h.entries i (by omega)

/-! ### Every step and every command keeps it -/

/-- R83, R26: the advance of a fetchable counter is even and at most `MEM_SIZE`. -/
theorem advance_even_le {s : State} (hf : fetchFault s = none) :
    (s.pc + 2#16).toNat % 2 = 0 ∧ (s.pc + 2#16).toNat ≤ Config.MEM_SIZE := by
  obtain ⟨hle, heven⟩ := fetchable_of_fetchFault_eq_none hf
  rw [advance_toNat hle]
  simp only [Config.LAST_WORD, Config.MEM_SIZE] at hle ⊢
  omega

theorem step_keeps_inv {s t : State} (h : StateInv s) (hs : step s = .next t) : StateInv t := by
  rcases step_cases s with ⟨hr, -⟩ | ⟨-, hi⟩ | ⟨f, -, hi⟩
  · rcases step_running_cases hr hs with ⟨f, -, rfl⟩ | ⟨hf, hcases⟩
    · exact h.setStatus _
    · have hv := advance_even_le hf
      have hadv := h.setPc hv.2
      rcases hcases with ⟨-, rfl⟩ | ⟨w, -, rfl⟩ | ⟨x, y, -, rfl⟩ | ⟨-, -, rfl⟩ |
        ⟨hk, -, hpos, hpc, hsp, hst, hm, -⟩ | ⟨nnn, -, -, rfl⟩ | ⟨nnn, hk, -, hpc, hsp, hst, hm, -⟩
      · exact hadv.setStatus _
      · exact hadv.setStatus _
      · exact (hadv.writeReg _ _).writeReg _ _
      · exact hadv.setStatus _
      · exact h.popped hk hpos hpc hsp hst hm
      · exact hadv.setStatus _
      · exact h.pushed hk hv hpc hsp hst hm
  · cases hi.symm.trans hs
    exact h
  · cases hi.symm.trans hs

theorem run_keeps_inv {s : State} (h : StateInv s) : StateInv (run s).1 := by
  by_cases hf : ∃ f, s.status = .faulted f
  · obtain ⟨f, hf⟩ := hf
    rwa [run_faulted hf]
  · rw [run_unfaulted (not_exists.mp hf)]
    exact runLoop_keeps (fun _ _ => step_keeps_inv) _ _ (h.setStatus .running)

theorem hostCommand_keeps_inv (c : Command) {s : State} (h : StateInv s) :
    StateInv (hostCommand c s).1 := by
  rcases hostCommand_cases c s with he | ⟨i, v, -, he⟩ | ⟨v, -, hv, -, he⟩ | ⟨a, w, -, ha, he⟩ | ⟨-, he⟩ <;>
    rw [he]
  · exact h
  · exact h.writeReg i v
  · exact h.setPc (by rw [counter_ofNat_toNat hv]; exact Nat.le_of_lt hv)
  · exact h.setMem (write16_wf ha w h.mem_wf)
  · exact run_keeps_inv h

theorem reset_inv : StateInv State.reset :=
  ⟨rfl, Nat.zero_le _, fun i hi => absurd hi (Nat.not_lt_zero i.val)⟩

theorem Reachable.inv {s : State} (h : Reachable s) : StateInv s := by
  induction h with
  | constructed => exact reset_inv
  | commanded c _ _ ih => exact hostCommand_keeps_inv c ih
  | started _ _ ih => exact ih.setStatus .running
  | stepped _ hs ih => exact step_keeps_inv ih hs

/-! ### A reachable state at the last byte (log 7) -/

/-- A run that starts at a CALL of `0xFFF`. -/
def callToLastByte : State := startRun (hostCommand (.writeInstruction 0 0x2FFF) State.reset).1

theorem reachable_callToLastByte : Reachable callToLastByte :=
  .started (.commanded _ .constructed (by decide)) (by decide)

/-- Its first step goes to `0xFFF` and the run goes on there. -/
theorem step_callToLastByte :
    ∃ t, step callToLastByte = .next t ∧ t.status = .running ∧ t.pc = 0xFFF#16 := by
  have hword : decodeWord (callToLastByte.mem.read16 callToLastByte.pc.toNat) = .call 0xFFF := by decide
  have hstep := step_of_fetchable (s := callToLastByte) (by decide) (by decide) (by decide)
  rw [hword] at hstep
  obtain ⟨t, he, hpc, -, -, -, -, hu⟩ :=
    exec_call_of_lt 0xFFF (s := callToLastByte.setPc (callToLastByte.pc + 2#16)) (by decide)
  exact ⟨t, hstep.trans he, hu, hpc⟩

/-! ### The obligations -/

/-- Settles O44. -/
theorem theResetStateMeetsTheInvariant : Obligations.TheResetStateMeetsTheInvariant := reset_inv

/-- Settles O45, by the ways a step can go. -/
theorem everyStepKeepsTheInvariant : Obligations.EveryStepKeepsTheInvariant :=
  fun _ _ => step_keeps_inv

/-- Settles O46, by the ways a command can leave the state; a run keeps what every step keeps. -/
theorem everyHostCommandKeepsTheInvariant : Obligations.EveryHostCommandKeepsTheInvariant :=
  ⟨fun c _ => hostCommand_keeps_inv c, fun _ => Reachable.inv⟩

/-- Settles O14: CALL `0xFFF` from reset reaches the meeting point, and the invariant bounds the counter by
4096, so that no other odd counter is above 4094. -/
theorem bothFetchConditionsMeetExactlyAtTheLastByte :
    Obligations.BothFetchConditionsMeetExactlyAtTheLastByte := by
  refine ⟨?_, fun s h hgt hodd => ?_⟩
  · obtain ⟨t, hs, hu, hpc⟩ := step_callToLastByte
    exact ⟨t, .stepped reachable_callToLastByte hs, hu, by rw [hpc]; decide, by rw [hpc]; decide⟩
  · have hle : s.pc.toNat ≤ 4096 := h.inv.pc_le
    apply BitVec.eq_of_toNat_eq
    change s.pc.toNat = 4095
    omega

end Sys2Proof.Machine
end

section
/-! Proofs about matched calls and returns (41_control_transfer.md R95): a step changes no entry below the
stack pointer, so the return address pushed by a CALL is there when the matching RET pops it. -/

namespace Sys2Proof.Machine

/-! ### The step of a CALL and of a RET -/

theorem step_call {s : State} {nnn : Addr} (hr : s.status = .running)
    (hle : s.pc.toNat ≤ Config.LAST_WORD) (heven : s.pc.toNat % 2 = 0)
    (hd : decodeWord (s.mem.read16 s.pc.toNat) = .call nnn) (hk : s.sp.val < Config.STACK_DEPTH) :
    ∃ t, step s = .next t ∧ t.pc = addressOperand nnn ∧ t.sp.val = s.sp.val + 1 ∧
      t.stack = s.stack.set s.sp.val (s.pc + 2#16) hk ∧ t.mem = s.mem ∧ t.V = s.V ∧
      t.status = .running := by
  obtain ⟨t, he, hpc, hsp, hst, hm, hV, hu⟩ :=
    exec_call_of_lt nnn (s := s.setPc (s.pc + 2#16)) hk
  refine ⟨t, ?_, hpc, hsp, hst, hm, hV, hu.trans hr⟩
  rw [step_of_fetchable hr hle heven, hd, he]

theorem step_ret {s : State} {k : Fin Config.STACK_DEPTH} (hr : s.status = .running)
    (hle : s.pc.toNat ≤ Config.LAST_WORD) (heven : s.pc.toNat % 2 = 0)
    (hd : decodeWord (s.mem.read16 s.pc.toNat) = .ret) (hk : s.sp.val = k.val + 1) :
    ∃ t, step s = .next t ∧ t.pc = s.stack.get k ∧ t.sp.val = k.val ∧ t.stack = s.stack ∧
      t.mem = s.mem ∧ t.V = s.V ∧ t.status = .running := by
  obtain ⟨t, he, hpc, hsp, hst, hm, hV, hu⟩ := exec_ret_of_pos (s := s.setPc (s.pc + 2#16)) hk
  refine ⟨t, ?_, hpc, hsp, hst, hm, hV, hu.trans hr⟩
  rw [step_of_fetchable hr hle heven, hd, he]

/-! ### The call stack along steps -/

/-- What a step does to the call stack: nothing, or a pop into the counter, or a push. -/
theorem step_stack_cases {s t : State} (hs : step s = .next t) :
    (t.sp = s.sp ∧ t.stack = s.stack) ∨
    (∃ hk : s.sp.val - 1 < Config.STACK_DEPTH, 0 < s.sp.val ∧ t.pc = s.stack[s.sp.val - 1] ∧
      t.sp.val = s.sp.val - 1 ∧ t.stack = s.stack) ∨
    (∃ (v : Word) (hk : s.sp.val < Config.STACK_DEPTH), t.sp.val = s.sp.val + 1 ∧
      t.stack = s.stack.set s.sp.val v hk) := by
  rcases step_cases s with ⟨hr, -⟩ | ⟨-, hi⟩ | ⟨f, -, hi⟩
  · rcases step_running_cases hr hs with ⟨f, -, rfl⟩ | ⟨-, ⟨-, rfl⟩ | ⟨w, -, rfl⟩ | ⟨x, y, -, rfl⟩ |
      ⟨-, -, rfl⟩ | ⟨hk, -, hpos, hpc, hsp, hst, -⟩ | ⟨nnn, -, -, rfl⟩ | ⟨nnn, hk, -, -, hsp, hst, -⟩⟩
    · exact .inl ⟨rfl, rfl⟩
    · exact .inl ⟨rfl, rfl⟩
    · exact .inl ⟨rfl, rfl⟩
    · exact .inl ⟨rfl, rfl⟩
    · exact .inl ⟨rfl, rfl⟩
    · exact .inr (.inl ⟨hk, hpos, hpc, hsp, hst⟩)
    · exact .inl ⟨rfl, rfl⟩
    · exact .inr (.inr ⟨_, hk, hsp, hst⟩)
  · cases hi.symm.trans hs
    exact .inl ⟨rfl, rfl⟩
  · cases hi.symm.trans hs

/-- A step changes no entry in use. -/
theorem step_keeps_entries {s t : State} (hs : step s = .next t) {i : Fin Config.STACK_DEPTH}
    (hi : i.val < s.sp.val) : t.stack.get i = s.stack.get i := by
  rcases step_stack_cases hs with ⟨-, hst⟩ | ⟨-, -, -, -, hst⟩ | ⟨v, hk, -, hst⟩ <;> rw [hst]
  rw [stack_get_set, if_neg (Nat.ne_of_gt hi)]

/-- The same steps, the last one split off. -/
theorem steps_succ_last {n : Nat} {s v : State} (h : steps n s = .next v) :
    steps (n + 1) s = step v := by
  induction n generalizing s with
  | zero =>
    cases h
    cases hs : step v with
    | next u => exact steps_succ_next hs 0
    | fault f => exact steps_succ_fault hs 0
    | refused r => rw [steps, hs]
  | succ n ih =>
    cases hs : step s with
    | next u =>
      rw [steps_succ_next hs] at h ⊢
      exact ih h
    | fault f => cases (steps_succ_fault hs n).symm.trans h
    | refused r => rw [steps, hs] at h; cases h

/-- While the stack pointer stays above `k`, the entries up to `k` are kept. -/
theorem steps_keep_entries {n : Nat} {s v : State} {k : Nat}
    (habove : ∀ m ≤ n, ∃ u, steps m s = .next u ∧ k < u.sp.val) (hv : steps n s = .next v)
    {i : Fin Config.STACK_DEPTH} (hi : i.val ≤ k) : v.stack.get i = s.stack.get i := by
  induction n generalizing v with
  | zero => cases hv; rfl
  | succ n ih =>
    obtain ⟨u, hu, hku⟩ := habove n (Nat.le_succ n)
    have hstep : step u = .next v := (steps_succ_last hu).symm.trans hv
    rw [step_keeps_entries hstep (Nat.lt_of_le_of_lt hi hku)]
    exact ih (fun m hm => habove m (Nat.le_succ_of_le hm)) hu

/-- A step that brings the stack pointer down to `k` pops entry `k` into the counter. -/
theorem step_pops_of_sp_lt {s t : State} (hs : step s = .next t) {k : Fin Config.STACK_DEPTH}
    (ht : t.sp.val = k.val) (hk : k.val < s.sp.val) :
    t.pc = s.stack.get k ∧ t.stack = s.stack := by
  rcases step_stack_cases hs with ⟨hsp, -⟩ | ⟨_, -, hpc, hsp, hst⟩ | ⟨v, _, hsp, -⟩
  · rw [hsp] at ht
    omega
  · have hidx : s.sp.val - 1 = k.val := hsp.symm.trans ht
    exact ⟨by simp only [hpc, hidx, Vector.get_eq_getElem], hst⟩
  · omega

/-! ### The obligations -/

/-- Settles O26: the pushed counter is the entry that the RET pops. -/
theorem callThenReturnRestoresCounterAndPointer :
    Obligations.CallThenReturnRestoresCounterAndPointer := by
  intro s nnn hr hle heven hk hd hle' heven' hret
  obtain ⟨u, hu, hpc, hsp, hst, hm, hV, hru⟩ := step_call hr hle heven hd hk
  rw [← addressOperand_toNat, ← hpc] at hle' heven' hret
  have hd' : decodeWord (u.mem.read16 u.pc.toNat) = .ret := by
    rw [hm, hret]
    exact decodeWord_retWord
  obtain ⟨t, ht, htpc, htsp, htst, htm, htV, hrt⟩ :=
    step_ret (k := ⟨s.sp.val, hk⟩) hru hle' heven' hd' hsp
  refine ⟨t, (steps_succ_next hu 1).trans (steps_succ_next ht 0), ?_, Fin.ext htsp, htV.trans hV,
    htm.trans hm, hrt, fun i hi => ?_⟩
  · rw [htpc, hst, stack_get_set, if_pos rfl]
    rfl
  · rw [htst]
    exact step_keeps_entries hu hi

/-- Settles O27: the entry that CALL pushed, and those below it, are kept for the `n` steps, and the last
step pops that entry. -/
theorem nestedCallsReturnToTheWordAfterTheCall :
    Obligations.NestedCallsReturnToTheWordAfterTheCall := by
  intro s s1 t nnn n hr hle heven hk hd hs habove ht hsp
  obtain ⟨u, hu, -, -, hst, -⟩ := step_call hr hle heven hd hk
  cases hu.symm.trans hs
  obtain ⟨v, hv, hkv⟩ := habove n (Nat.le_refl n)
  have hlast : step v = .next t := (steps_succ_last hv).symm.trans ht
  obtain ⟨hpc, htst⟩ :=
    step_pops_of_sp_lt hlast (k := ⟨s.sp.val, hk⟩) (congrArg Fin.val hsp) hkv
  refine ⟨?_, fun i hi => ?_⟩
  · rw [hpc, steps_keep_entries habove hv (Nat.le_refl _), hst, stack_get_set, if_pos rfl]
    rfl
  · rw [htst, steps_keep_entries habove hv (Nat.le_of_lt hi)]
    exact step_keeps_entries hs hi

end Sys2Proof.Machine
end

section
/-! Proofs about whole runs (40_fetch_decode_execute.md R80, R86 to R89). R89's count is made a measure: an
activation at depth `d` has an iteration of its own for each word from its counter up, and between two of
them at most one call of an activation one deeper. Every iteration that does not end the run lowers the
measure, so a run ends within the bound. -/

namespace Sys2Proof.Machine

/-! ### The measure -/

/-- The words at and above a counter: the iterations of its own that an activation still has. -/
def wordsLeft (p : Word) : Nat := (Config.MEM_SIZE - p.toNat) / 2

/-- What one own iteration can cost where `d` stack entries are free: itself, and a callee's whole
activation with one entry less. -/
def iterationCost : Nat → Nat
  | 0 => 1
  | d + 1 => 1 + Config.MEM_SIZE / 2 * iterationCost d

/-- What the activations that wait in the first `k` stack entries can still cost. -/
def waitingCost (v : Vector Word Config.STACK_DEPTH) : Nat → Nat
  | 0 => 0
  | k + 1 =>
    waitingCost v k +
      if h : k < Config.STACK_DEPTH then wordsLeft v[k] * iterationCost (Config.STACK_DEPTH - k) else 0

/-- R89: what a state inside a run can still cost. -/
def runCost (s : State) : Nat :=
  wordsLeft s.pc * iterationCost (Config.STACK_DEPTH - s.sp.val) + waitingCost s.stack s.sp.val

theorem iterationCost_pos (d : Nat) : 0 < iterationCost d := by
  cases d with
  | zero => exact Nat.one_pos
  | succ d => exact Nat.add_pos_left Nat.one_pos _

theorem iterationCost_mono : Monotone iterationCost :=
  monotone_nat_of_le_succ fun _ => Nat.le_add_left_of_le (Nat.le_mul_of_pos_left _ (by decide))

/-- A free entry is what the iteration that calls pays for its callee with. -/
theorem iterationCost_of_lt {k : Nat} (hk : k < Config.STACK_DEPTH) :
    iterationCost (Config.STACK_DEPTH - k) =
      1 + Config.MEM_SIZE / 2 * iterationCost (Config.STACK_DEPTH - (k + 1)) := by
  rw [show Config.STACK_DEPTH - k = Config.STACK_DEPTH - (k + 1) + 1 by omega, iterationCost]

theorem waitingCost_succ (v : Vector Word Config.STACK_DEPTH) {k : Nat} (hk : k < Config.STACK_DEPTH) :
    waitingCost v (k + 1) =
      waitingCost v k + wordsLeft v[k] * iterationCost (Config.STACK_DEPTH - k) := by
  rw [waitingCost, dif_pos hk]

/-- A push does not touch the entries that wait below it. -/
theorem waitingCost_set (v : Vector Word Config.STACK_DEPTH) {j k : Nat} (hj : j < Config.STACK_DEPTH)
    (hk : k ≤ j) (w : Word) : waitingCost (v.set j w hj) k = waitingCost v k := by
  induction k with
  | zero => rfl
  | succ k ih =>
    have hkd : k < Config.STACK_DEPTH := Nat.lt_of_lt_of_le hk (Nat.le_of_lt hj)
    rw [waitingCost_succ _ hkd, waitingCost_succ _ hkd, ih (Nat.le_of_succ_le hk),
      Vector.getElem_set_ne hj hkd (Nat.ne_of_gt hk)]

theorem wordsLeft_le (p : Word) : wordsLeft p ≤ Config.MEM_SIZE / 2 :=
  Nat.div_le_div_right (Nat.sub_le _ _)

/-- R83: the advance leaves one word less. -/
theorem wordsLeft_advance {s : State} (hf : fetchFault s = none) :
    wordsLeft s.pc = wordsLeft (s.pc + 2#16) + 1 := by
  obtain ⟨hle, -⟩ := fetchable_of_fetchFault_eq_none hf
  rw [wordsLeft, wordsLeft, advance_toNat hle]
  simp only [Config.LAST_WORD, Config.MEM_SIZE] at hle ⊢
  omega

/-! ### Every iteration that does not end the run lowers it -/

theorem runCost_add_lt {s t : State} (hf : fetchFault s = none) (hpc : t.pc = s.pc + 2#16)
    (hsp : t.sp = s.sp) (hst : t.stack = s.stack) : runCost t < runCost s := by
  rw [runCost, runCost, hpc, hsp, hst, wordsLeft_advance hf, Nat.succ_mul]
  have := iterationCost_pos (Config.STACK_DEPTH - s.sp.val)
  omega

theorem runCost_ret_lt {s t : State} {k : Nat} (hf : fetchFault s = none) (hk : k < Config.STACK_DEPTH)
    (hs : s.sp.val = k + 1) (hpc : t.pc = s.stack[k]) (hsp : t.sp.val = k)
    (hst : t.stack = s.stack) : runCost t < runCost s := by
  rw [runCost, runCost, hpc, hsp, hst, hs, waitingCost_succ _ hk, wordsLeft_advance hf, Nat.succ_mul]
  have := iterationCost_pos (Config.STACK_DEPTH - (k + 1))
  omega

theorem runCost_call_lt {s t : State} (hf : fetchFault s = none) (hk : s.sp.val < Config.STACK_DEPTH)
    (hsp : t.sp.val = s.sp.val + 1) (hst : t.stack = s.stack.set s.sp.val (s.pc + 2#16) hk) :
    runCost t < runCost s := by
  have hcallee := Nat.mul_le_mul_right (iterationCost (Config.STACK_DEPTH - (s.sp.val + 1)))
    (wordsLeft_le t.pc)
  have hcost := iterationCost_of_lt hk
  rw [runCost, runCost, hsp, hst, waitingCost_succ _ hk, Vector.getElem_set_self,
    waitingCost_set _ hk (Nat.le_refl _), wordsLeft_advance hf, Nat.succ_mul]
  omega

theorem runCost_step_lt {s t : State} (hr : s.status = .running) (hs : step s = .next t)
    (ht : t.status = .running) : runCost t < runCost s := by
  rcases step_running_cases hr hs with ⟨f, -, rfl⟩ | ⟨hf, ⟨-, rfl⟩ | ⟨w, -, rfl⟩ | ⟨x, y, -, rfl⟩ |
    ⟨-, -, rfl⟩ | ⟨hk, -, hpos, hpc, hsp, hst, -⟩ | ⟨nnn, -, -, rfl⟩ | ⟨nnn, hk, -, -, hsp, hst, -⟩⟩
  · cases ht
  · cases ht
  · cases ht
  · exact runCost_add_lt hf rfl rfl rfl
  · cases ht
  · exact runCost_ret_lt hf hk (Nat.sub_add_cancel hpos).symm hpc hsp hst
  · cases ht
  · exact runCost_call_lt hf hk hsp hst

/-! ### The bound (R89) -/

theorem waitingCost_le (v : Vector Word Config.STACK_DEPTH) {k : Nat} (hk : k ≤ Config.STACK_DEPTH) :
    waitingCost v k ≤ k * (Config.MEM_SIZE / 2 * iterationCost Config.STACK_DEPTH) := by
  induction k with
  | zero => exact Nat.zero_le _
  | succ k ih =>
    rw [waitingCost_succ v hk, Nat.succ_mul]
    exact Nat.add_le_add (ih (Nat.le_of_succ_le hk))
      (Nat.mul_le_mul (wordsLeft_le _) (iterationCost_mono (Nat.sub_le _ _)))

theorem run_bound_eq : Config.RUN_BOUND = 2048 ^ 18 := rfl

theorem runCost_lt (s : State) : runCost s + 1 < 2048 ^ 18 := by
  have hsp : s.sp.val ≤ Config.STACK_DEPTH := Nat.le_of_lt_succ s.sp.isLt
  have hown : wordsLeft s.pc * iterationCost (Config.STACK_DEPTH - s.sp.val) ≤
      Config.MEM_SIZE / 2 * iterationCost Config.STACK_DEPTH :=
    Nat.mul_le_mul (wordsLeft_le _) (iterationCost_mono (Nat.sub_le _ _))
  have hwait := (waitingCost_le s.stack hsp).trans (Nat.mul_le_mul_right _ hsp)
  calc runCost s + 1
      ≤ Config.MEM_SIZE / 2 * iterationCost Config.STACK_DEPTH +
          Config.STACK_DEPTH * (Config.MEM_SIZE / 2 * iterationCost Config.STACK_DEPTH) + 1 :=
        Nat.succ_le_succ (Nat.add_le_add hown hwait)
    _ < 2048 ^ 18 := by decide

/-! ### The loop ends, and is its steps up to there (R86, R88) -/

/-- `n` steps lead from `s` to `t`, the first state that is not running. -/
def EndsAfter (n : Nat) (s t : State) : Prop :=
  steps n s = .next t ∧ t.status ≠ .running ∧
    ∀ m < n, ∃ u, steps m s = .next u ∧ u.status = .running

theorem EndsAfter.zero {s : State} (h : s.status ≠ .running) : EndsAfter 0 s s :=
  ⟨rfl, h, fun m hm => absurd hm (Nat.not_lt_zero m)⟩

theorem EndsAfter.succ {n : Nat} {s u t : State} (hr : s.status = .running) (hs : step s = .next u)
    (h : EndsAfter n u t) : EndsAfter (n + 1) s t := by
  obtain ⟨hsteps, hend, hbefore⟩ := h
  refine ⟨(steps_succ_next hs n).trans hsteps, hend, fun m hm => ?_⟩
  cases m with
  | zero => exact ⟨s, rfl, hr⟩
  | succ m =>
    rw [steps_succ_next hs]
    exact hbefore m (Nat.lt_of_succ_lt_succ hm)

theorem step_next_of_running {s : State} (hr : s.status = .running) : ∃ t, step s = .next t :=
  step_next fun _ hf => nomatch hr.symm.trans hf

/-- The loop, given more iterations than the state can cost, ends within that cost. -/
theorem runLoop_endsAfter {k : Nat} {s : State} (hr : s.status = .running) (hk : runCost s < k) :
    ∃ n ≤ runCost s + 1, EndsAfter n s (runLoop k s) := by
  induction k generalizing s with
  | zero => exact absurd hk (Nat.not_lt_zero _)
  | succ k ih =>
    obtain ⟨u, hs⟩ := step_next_of_running hr
    rw [runLoop_succ_running hr hs]
    by_cases hu : u.status = .running
    · have hlt := runCost_step_lt hr hs hu
      obtain ⟨n, hn, hends⟩ := ih hu (by omega)
      exact ⟨n + 1, by omega, hends.succ hr hs⟩
    · rw [runLoop_ended hu]
      exact ⟨1, by omega, (EndsAfter.zero hu).succ hr hs⟩

/-- R80, R89: a run that no earlier fault turns away is the loop from the state with the status Running,
and ends within the bound. -/
theorem run_endsAfter {s : State} (h : ∀ f, s.status ≠ .faulted f) :
    ∃ n < 2048 ^ 18, EndsAfter n (startRun s) (run s).1 := by
  have hcost := runCost_lt (startRun s)
  obtain ⟨n, hn, hends⟩ := runLoop_endsAfter (s := startRun s) (k := Config.RUN_BOUND) rfl
    (by rw [run_bound_eq]; omega)
  rw [run_unfaulted h]
  exact ⟨n, by omega, hends⟩

/-- R88: the value a run returns is the status it ended with. -/
theorem run_result_of_status {s : State} (h : (run s).1.status ≠ .running)
    (hs : ∀ f, s.status ≠ .faulted f) :
    ((run s).2 = .halted ∧ (run s).1.status = .halted) ∨
      ∃ f, (run s).2 = .fatal f ∧ (run s).1.status = .faulted f := by
  have hresult : (run s).2 = runResult (run s).1 := by rw [run_unfaulted hs]
  rw [hresult]
  cases hu : (run s).1.status with
  | running => exact absurd hu h
  | halted => exact .inl ⟨by simp only [runResult, hu], rfl⟩
  | faulted f => exact .inr ⟨f, by simp only [runResult, hu], rfl⟩

/-! ### A run that ends at its first step -/

theorem exec_halt (s : State) : exec .halt s = .next (s.setStatus .halted) := rfl

theorem run_of_step_ended {s u : State} (hs : ∀ f, s.status ≠ .faulted f)
    (h : step (startRun s) = .next u) (hu : u.status ≠ .running) : run s = (u, runResult u) := by
  obtain ⟨k, hk⟩ : ∃ k, Config.RUN_BOUND = k + 1 := Nat.exists_eq_succ_of_ne_zero (by decide)
  have hloop : runLoop Config.RUN_BOUND (startRun s) = u := by
    rw [hk, runLoop_succ_running rfl h, runLoop_ended hu]
  rw [run_unfaulted hs, hloop]

/-- R92: HALT fetched at `A` ends the run with the counter at `A + 2` and nothing else changed. -/
theorem run_of_haltWord {s : State} (hh : s.status = .halted) (hle : s.pc.toNat ≤ Config.LAST_WORD)
    (heven : s.pc.toNat % 2 = 0) (hw : s.mem.read16 s.pc.toNat = 0x0000#16) :
    run s = (s.setPc (s.pc + 2#16), .halted) := by
  have hstep := step_of_fetchable (s := startRun s) rfl hle heven
  rw [show (startRun s).mem.read16 (startRun s).pc.toNat = 0x0000#16 from hw, decodeWord_haltWord,
    exec_halt] at hstep
  rw [run_of_step_ended (fun f hf => nomatch hh.symm.trans hf) hstep nofun]
  exact Prod.ext (state_ext rfl rfl rfl rfl rfl hh.symm) rfl

/-! ### The obligations -/

/-- Settles O40, by the measure `runCost`. -/
theorem aRunIsItsIterationsAndTheyAreBounded : Obligations.ARunIsItsIterationsAndTheyAreBounded :=
  fun _ => run_endsAfter

/-- Settles O39: a sticky fault is returned at once, and any other run ends. -/
theorem everyRunEndsHaltedOrFatal : Obligations.EveryRunEndsHaltedOrFatal := by
  intro s
  by_cases hf : ∃ f, s.status = .faulted f
  · obtain ⟨f, hf⟩ := hf
    rw [run_faulted hf]
    exact .inr ⟨f, rfl, hf⟩
  · have hs := not_exists.mp hf
    obtain ⟨n, -, -, hend, -⟩ := run_endsAfter hs
    exact run_result_of_status hend hs

/-- Settles O17. -/
theorem haltEndsTheRunChangingOnlyTheStatus : Obligations.HaltEndsTheRunChangingOnlyTheStatus :=
  ⟨exec_halt, fun _ => run_of_haltWord⟩

/-- Settles O43: the reset memory holds the zero word at the reset counter. -/
theorem aRunFromResetHaltsAtOnce : Obligations.ARunFromResetHaltsAtOnce :=
  run_of_haltWord reset_status (by decide) rfl
    (congrArg₂ wordOfBytes (reset_mem_read 0) (reset_mem_read 1))

end Sys2Proof.Machine
end

section
/-! Proofs about what a program cannot observe (10_state.md R29, R34; 41_control_transfer.md R96): a relation
of states that the shared operations respect is respected by every meaning, step and run. It is shown once,
and used for states that differ in stack entries not in use and for states that differ in registers. -/

namespace Sys2Proof.Machine

/-- The relation agrees on what the loop reads, and the shared operations respect it. -/
structure RespectedByOps (R : State → State → Prop) : Prop where
  mem {s t : State} : R s t → s.mem = t.mem
  pc {s t : State} : R s t → s.pc = t.pc
  status {s t : State} : R s t → s.status = t.status
  setPc {s t : State} (v : Word) : R s t → R (s.setPc v) (t.setPc v)
  setStatus {s t : State} (u : Status) : R s t → R (s.setStatus u) (t.setStatus u)
  add {s t : State} (x y : RegIdx) : R s t → SameOutcome R (execAdd x y s) (execAdd x y t)
  push {s t : State} (v : Word) : R s t →
    (∃ f, push v s = .error f ∧ push v t = .error f) ∨
      ∃ s' t', push v s = .ok s' ∧ push v t = .ok t' ∧ R s' t'
  pop {s t : State} : R s t →
    (∃ f, pop s = .error f ∧ pop t = .error f) ∨
      ∃ v s' t', pop s = .ok (v, s') ∧ pop t = .ok (v, t') ∧ R s' t'

/-! ### Meanings, steps and runs -/

section
variable {R : State → State → Prop} (hR : RespectedByOps R)
include hR

theorem RespectedByOps.exec (i : Instr) {s t : State} (h : R s t) :
    SameOutcome R (exec i s) (exec i t) := by
  cases i with
  | halt => exact hR.setStatus .halted h
  | unimplemented w => exact hR.setStatus (.faulted (.unimplementedOpcode w)) h
  | add x y => exact hR.add x y h
  | ret =>
    change SameOutcome R (execRet s) (execRet t)
    rcases hR.pop h with ⟨f, hs, ht⟩ | ⟨v, s', t', hs, ht, h'⟩ <;> simp only [execRet, hs, ht]
    · exact hR.setStatus (.faulted f) h
    · exact hR.setPc v h'
  | call nnn =>
    change SameOutcome R (execCall nnn s) (execCall nnn t)
    rcases hR.push t.pc h with ⟨f, hs, ht⟩ | ⟨s', t', hs, ht, h'⟩ <;>
      simp only [execCall, hR.pc h, hs, ht]
    · exact hR.setStatus (.faulted f) h
    · exact hR.setPc (addressOperand nnn) h'

theorem RespectedByOps.iteration {s t : State} (h : R s t) :
    SameOutcome R (iteration s) (iteration t) := by
  have hfault : fetchFault s = fetchFault t := by rw [fetchFault, fetchFault, hR.pc h]
  have hword : fetchWord s = fetchWord t := by rw [fetchWord, fetchWord, hR.pc h, hR.mem h]
  simp only [Machine.iteration, hfault, hword]
  cases fetchFault t with
  | some f => exact hR.setStatus (.faulted f) h
  | none =>
    rw [advance_eq, advance_eq, hR.pc h]
    exact hR.exec _ (hR.setPc _ h)

theorem RespectedByOps.step {s t : State} (h : R s t) : SameOutcome R (step s) (step t) := by
  simp only [Machine.step, hR.status h]
  cases t.status with
  | running => exact hR.iteration h
  | halted => exact h
  | faulted f => exact rfl

theorem RespectedByOps.runLoop (k : Nat) {s t : State} (h : R s t) :
    R (runLoop k s) (runLoop k t) := by
  induction k generalizing s t with
  | zero => exact h
  | succ k ih =>
    by_cases hr : s.status = .running
    · have hr' : t.status = .running := (hR.status h).symm.trans hr
      obtain ⟨u, hs⟩ := step_next_of_running hr
      obtain ⟨v, ht⟩ := step_next_of_running hr'
      have huv := hR.step h
      rw [hs, ht] at huv
      rw [runLoop_succ_running hr hs, runLoop_succ_running hr' ht]
      exact ih huv
    · rw [runLoop_ended hr, runLoop_ended (hR.status h ▸ hr)]
      exact h

theorem RespectedByOps.run {s t : State} (h : R s t) :
    (run s).2 = (run t).2 ∧ R (run s).1 (run t).1 := by
  by_cases hf : ∃ f, s.status = .faulted f
  · obtain ⟨f, hf⟩ := hf
    rw [run_faulted hf, run_faulted ((hR.status h).symm.trans hf)]
    exact ⟨rfl, h⟩
  · have hs := not_exists.mp hf
    have hloop := hR.runLoop Config.RUN_BOUND (hR.setStatus .running h)
    rw [run_unfaulted hs, run_unfaulted (hR.status h ▸ hs)]
    exact ⟨by simp only [runResult, startRun, hR.status hloop], hloop⟩

end

/-! ### States that differ in stack entries not in use (R29) -/

theorem AgreeInUse.readReg {s t : State} (h : AgreeInUse s t) (i : RegIdx) :
    s.readReg i = t.readReg i := by
  rw [State.readReg, State.readReg, h.V]

theorem AgreeInUse.setPc {s t : State} (v : Word) (h : AgreeInUse s t) :
    AgreeInUse (s.setPc v) (t.setPc v) :=
  ⟨h.mem, h.V, rfl, h.sp, h.status, h.entries⟩

theorem AgreeInUse.setStatus {s t : State} (u : Status) (h : AgreeInUse s t) :
    AgreeInUse (s.setStatus u) (t.setStatus u) :=
  ⟨h.mem, h.V, h.pc, h.sp, rfl, h.entries⟩

theorem AgreeInUse.setMem {s t : State} (m : Memory) (h : AgreeInUse s t) :
    AgreeInUse (s.setMem m) (t.setMem m) :=
  ⟨rfl, h.V, h.pc, h.sp, h.status, h.entries⟩

theorem AgreeInUse.writeReg {s t : State} (i : RegIdx) (v : Byte) (h : AgreeInUse s t) :
    AgreeInUse (s.writeReg i v) (t.writeReg i v) :=
  ⟨h.mem, congrArg (·.set i.val v i.isLt) h.V, h.pc, h.sp, h.status, h.entries⟩

/-- R90: the entry pushed is the same, and it is the only one that comes into use. -/
theorem AgreeInUse.push {s t : State} (v : Word) (h : AgreeInUse s t) :
    (∃ f, push v s = .error f ∧ push v t = .error f) ∨
      ∃ s' t', push v s = .ok s' ∧ push v t = .ok t' ∧ AgreeInUse s' t' := by
  have hsp := congrArg Fin.val h.sp
  rcases push_cases v s with ⟨hfull, hs⟩ | ⟨hk, s', hs, hsp1, hst1, hm1, hV1, hpc1, hu1⟩ <;>
    rcases push_cases v t with ⟨hfull', ht⟩ | ⟨hk', t', ht, hsp2, hst2, hm2, hV2, hpc2, hu2⟩
  · exact .inl ⟨_, hs, ht⟩
  · omega
  · omega
  · refine .inr ⟨s', t', hs, ht, ⟨by rw [hm1, hm2, h.mem], by rw [hV1, hV2, h.V],
      by rw [hpc1, hpc2, h.pc], Fin.ext (by omega), by rw [hu1, hu2, h.status], fun i hi => ?_⟩⟩
    rw [hst1, hst2, stack_get_set, stack_get_set, ← hsp]
    split
    · rfl
    · exact h.entries i (by omega)

/-- R91: the entry popped is in use, and so are those that stay in use. -/
theorem AgreeInUse.pop {s t : State} (h : AgreeInUse s t) :
    (∃ f, pop s = .error f ∧ pop t = .error f) ∨
      ∃ v s' t', pop s = .ok (v, s') ∧ pop t = .ok (v, t') ∧ AgreeInUse s' t' := by
  have hsp := congrArg Fin.val h.sp
  rcases pop_cases s with ⟨hzero, hs⟩ | ⟨hk, s', hpos, hs, hsp1, hst1, hm1, hV1, hpc1, hu1⟩ <;>
    rcases pop_cases t with ⟨hzero', ht⟩ | ⟨hk', t', hpos', ht, hsp2, hst2, hm2, hV2, hpc2, hu2⟩
  · exact .inl ⟨_, hs, ht⟩
  · omega
  · omega
  · have hentry : s.stack[s.sp.val - 1] = t.stack[t.sp.val - 1] := by
      simp only [← hsp]
      exact h.entries ⟨s.sp.val - 1, hk⟩ (Nat.sub_lt hpos Nat.one_pos)
    refine .inr ⟨_, s', t', hs, hentry ▸ ht, ⟨by rw [hm1, hm2, h.mem], by rw [hV1, hV2, h.V],
      by rw [hpc1, hpc2, h.pc], Fin.ext (by omega), by rw [hu1, hu2, h.status], fun i hi => ?_⟩⟩
    rw [hst1, hst2]
    exact h.entries i (by omega)

theorem agreeInUse_respected : RespectedByOps AgreeInUse where
  mem := AgreeInUse.mem
  pc := AgreeInUse.pc
  status := AgreeInUse.status
  setPc := AgreeInUse.setPc
  setStatus := AgreeInUse.setStatus
  push := AgreeInUse.push
  pop := AgreeInUse.pop
  add x y h := by
    rw [execAdd_eq, execAdd_eq, h.readReg, h.readReg]
    exact (h.writeReg _ _).writeReg _ _

/-- R34: no command tells such states apart. -/
theorem AgreeInUse.hostCommand (c : Command) {s t : State} (h : AgreeInUse s t) :
    (hostCommand c s).2 = (hostCommand c t).2 ∧
      AgreeInUse (hostCommand c s).1 (hostCommand c t).1 := by
  cases c with
  | writeRegister i v =>
    by_cases hi : i < Config.NREGS
    · rw [hostCommand_writeRegister ⟨i, hi⟩, hostCommand_writeRegister ⟨i, hi⟩]
      exact ⟨rfl, h.writeReg ⟨i, hi⟩ v⟩
    · have hi := Nat.le_of_not_lt hi
      rw [hostCommand_writeRegister_of_ge hi, hostCommand_writeRegister_of_ge hi]
      exact ⟨rfl, h⟩
  | readRegister i =>
    by_cases hi : i < Config.NREGS
    · rw [hostCommand_readRegister ⟨i, hi⟩, hostCommand_readRegister ⟨i, hi⟩]
      exact ⟨congrArg Reply.register (h.readReg ⟨i, hi⟩), h⟩
    · have hi := Nat.le_of_not_lt hi
      rw [hostCommand_readRegister_of_ge hi, hostCommand_readRegister_of_ge hi]
      exact ⟨rfl, h⟩
  | setProgramCounter v =>
    by_cases hv : v ≥ Config.MEM_SIZE ∨ v % 2 = 1
    · rw [hostCommand_setProgramCounter_of_ge_or_odd hv, hostCommand_setProgramCounter_of_ge_or_odd hv]
      exact ⟨rfl, h⟩
    · have hlt : v < Config.MEM_SIZE := by omega
      have heven : v % 2 = 0 := by omega
      rw [hostCommand_setProgramCounter_of_even hlt heven, hostCommand_setProgramCounter_of_even hlt heven]
      exact ⟨rfl, h.setPc _⟩
  | readProgramCounter => exact ⟨congrArg Reply.counter h.pc, h⟩
  | writeInstruction a w =>
    by_cases ha : a > Config.LAST_WORD
    · rw [hostCommand_writeInstruction_of_gt ha, hostCommand_writeInstruction_of_gt ha]
      exact ⟨rfl, h⟩
    · have ha := Nat.le_of_not_gt ha
      rw [hostCommand_writeInstruction_of_le ha, hostCommand_writeInstruction_of_le ha, h.mem]
      exact ⟨rfl, h.setMem _⟩
  | readInstruction a =>
    by_cases ha : a > Config.LAST_WORD
    · rw [hostCommand_readInstruction_of_gt ha, hostCommand_readInstruction_of_gt ha]
      exact ⟨rfl, h⟩
    · have ha := Nat.le_of_not_gt ha
      rw [hostCommand_readInstruction_of_le ha, hostCommand_readInstruction_of_le ha, h.mem]
      exact ⟨rfl, h⟩
  | run =>
    obtain ⟨hresult, hstate⟩ := agreeInUse_respected.run h
    exact ⟨congrArg Reply.run hresult, hstate⟩

/-! ### States that differ in registers (R96) -/

/-- Such a state is the other one with the registers replaced. -/
theorem AgreeButRegisters.eq_withRegisters {s t : State} (h : AgreeButRegisters s t) :
    t = { s with V := t.V } :=
  state_ext h.mem.symm rfl h.pc.symm h.stack.symm h.sp.symm h.status.symm

theorem AgreeButRegisters.push {s t : State} (v : Word) (h : AgreeButRegisters s t) :
    (∃ f, push v s = .error f ∧ push v t = .error f) ∨
      ∃ s' t', push v s = .ok s' ∧ push v t = .ok t' ∧ AgreeButRegisters s' t' := by
  rw [h.eq_withRegisters]
  by_cases hfull : s.sp.val = Config.STACK_DEPTH
  · exact .inl ⟨_, dif_pos hfull, dif_pos hfull⟩
  · exact .inr ⟨_, _, dif_neg hfull, dif_neg hfull, rfl, rfl, rfl, rfl, rfl⟩

theorem AgreeButRegisters.pop {s t : State} (h : AgreeButRegisters s t) :
    (∃ f, pop s = .error f ∧ pop t = .error f) ∨
      ∃ v s' t', pop s = .ok (v, s') ∧ pop t = .ok (v, t') ∧ AgreeButRegisters s' t' := by
  rw [h.eq_withRegisters]
  by_cases hzero : s.sp.val = 0
  · exact .inl ⟨_, dif_pos hzero, dif_pos hzero⟩
  · exact .inr ⟨_, _, _, dif_neg hzero, dif_neg hzero, rfl, rfl, rfl, rfl, rfl⟩

theorem agreeButRegisters_respected : RespectedByOps AgreeButRegisters where
  mem := AgreeButRegisters.mem
  pc := AgreeButRegisters.pc
  status := AgreeButRegisters.status
  setPc _ h := ⟨h.mem, rfl, h.stack, h.sp, h.status⟩
  setStatus _ h := ⟨h.mem, h.pc, h.stack, h.sp, rfl⟩
  push := AgreeButRegisters.push
  pop := AgreeButRegisters.pop
  add _ _ h := ⟨h.mem, h.pc, h.stack, h.sp, h.status⟩

/-! ### The obligations -/

/-- Settles O41: the shared operations respect the relation, so steps and runs do, and the other commands
read and write what the two states share. -/
theorem stackEntriesNotInUseAreUnobservable : Obligations.StackEntriesNotInUseAreUnobservable :=
  fun _ _ h => ⟨agreeInUse_respected.step h, fun c => h.hostCommand c⟩

/-- Settles O25: only ADD uses the registers, and it writes nothing else. -/
theorem registersDoNotSteerControl : Obligations.RegistersDoNotSteerControl :=
  fun _ _ => agreeButRegisters_respected.step

end Sys2Proof.Machine
end

section
/-! Proofs about the words of memory (20_memory.md R45): a write beside its neighbours, the canonical form,
and the word that the model's own load places (log 3). -/

namespace Sys2Proof.Machine

/-! ### The canonical form (log 6) -/

theorem read_head (a : Nat) (b : Byte) (m : Memory) : Memory.read ((a, b) :: m) a = b := by
  rw [read_cons, if_pos rfl]

/-- Below its first address a canonical memory reads zero, so a memory that reads the same lists nothing
there. -/
theorem head_le_of_read_eq {lo lo' a a' : Nat} {b b' : Byte} {m m' : Memory}
    (hm : Memory.wfFrom lo ((a, b) :: m) = true) (hm' : Memory.wfFrom lo' ((a', b') :: m') = true)
    (h : ∀ x, Memory.read ((a, b) :: m) x = Memory.read ((a', b') :: m') x) : a' ≤ a := by
  obtain ⟨-, -, hb, -⟩ := wfFrom_cons.mp hm
  obtain ⟨-, hrest'⟩ := wfFrom_cons.mp hm'
  by_contra hlt
  have hzero := read_below (Nat.lt_of_not_le hlt) (wfFrom_cons.mpr ⟨Nat.le_refl a', hrest'⟩)
  exact hb ((read_head a b m).symm.trans ((h a).trans hzero))

theorem ne_nil_read {lo a : Nat} {b : Byte} {m : Memory}
    (hm : Memory.wfFrom lo ((a, b) :: m) = true) :
    Memory.read ((a, b) :: m) a ≠ Memory.read [] a := by
  obtain ⟨-, -, hb, -⟩ := wfFrom_cons.mp hm
  rwa [read_head]

/-- Canonical memories that read the same are the same list. -/
theorem eq_of_read_eq {lo : Nat} {m m' : Memory} (hm : Memory.wfFrom lo m = true)
    (hm' : Memory.wfFrom lo m' = true) (h : ∀ x, m.read x = m'.read x) : m = m' := by
  induction m generalizing lo m' with
  | nil =>
    cases m' with
    | nil => rfl
    | cons c' m' => exact absurd (h c'.1).symm (ne_nil_read hm')
  | cons c m ih =>
    cases m' with
    | nil => exact absurd (h c.1) (ne_nil_read hm)
    | cons c' m' =>
      obtain ⟨a, b⟩ := c
      obtain ⟨a', b'⟩ := c'
      obtain rfl : a = a' := Nat.le_antisymm (head_le_of_read_eq hm' hm fun x => (h x).symm)
        (head_le_of_read_eq hm hm' h)
      obtain ⟨-, -, -, htail⟩ := wfFrom_cons.mp hm
      obtain ⟨-, -, -, htail'⟩ := wfFrom_cons.mp hm'
      obtain rfl : b = b' := (read_head a b m).symm.trans ((h a).trans (read_head a b' m'))
      rw [ih htail htail' fun x => ?_]
      by_cases hx : x = a
      · have hlt : x < a + 1 := by omega
        rw [read_below hlt htail, read_below hlt htail']
      · have hread := h x
        rwa [read_cons, read_cons, if_neg hx, if_neg hx] at hread

/-! ### The words around a write (R45) -/

/-- The word one below takes the high byte as its low one. -/
theorem read16_write16_below {a b : Nat} (w : Word) {m : Memory} (ha : a ≤ Config.LAST_WORD)
    (hm : m.wf = true) (hb : b + 1 = a) :
    (m.write16 a w).read16 b = wordOfBytes (highByte (m.read16 b)) (highByte w) := by
  subst hb
  rw [Memory.read16, read_write16_high w ha hm, read_write16_other w m (by omega) (by omega),
    Memory.read16, highByte_wordOfBytes]

/-- The word one above takes the low byte as its high one. -/
theorem read16_write16_above {a : Nat} (w : Word) {m : Memory} (ha : a ≤ Config.LAST_WORD)
    (hm : m.wf = true) :
    (m.write16 a w).read16 (a + 1) = wordOfBytes (lowByte w) (lowByte (m.read16 (a + 1))) := by
  rw [Memory.read16, read_write16_low w ha hm, read_write16_other w m (by omega) (by omega),
    Memory.read16, lowByte_wordOfBytes]

theorem read16_write16_disjoint {a b : Nat} (w : Word) (m : Memory) (h : b + 1 < a ∨ a + 1 < b) :
    (m.write16 a w).read16 b = m.read16 b :=
  read16_congr (read_write16_other w m (by omega) (by omega))
    (read_write16_other w m (by omega) (by omega))

/-! ### The placed word (log 3) -/

theorem tableWord_toNat (w : Word) : tableWord 16 w.toNat = w := by
  apply BitVec.eq_of_toNat_eq
  rw [tableWord, BitVec.toNat_ofNat, Nat.mod_mod, Nat.mod_eq_of_lt w.isLt]

/-- The counter, where it is fetchable, and the reset entry point otherwise. -/
theorem fetchPlace_fetchable (s : State) :
    s.fetchPlace.toNat ≤ Config.LAST_WORD ∧ s.fetchPlace.toNat % 2 = 0 := by
  cases h : fetchFault s with
  | some f =>
    rw [State.fetchPlace, h]
    exact ⟨Nat.zero_le _, rfl⟩
  | none =>
    rw [State.fetchPlace, h]
    exact fetchable_of_fetchFault_eq_none h

theorem step_withFetchWord {s : State} (hm : s.mem.wf = true) (w : Word) :
    step (s.withFetchWord 16 w.toNat) =
      exec (decodeWord w) ((s.withFetchWord 16 w.toNat).setPc (s.fetchPlace + 2#16)) := by
  obtain ⟨hle, heven⟩ := fetchPlace_fetchable s
  have hword : (s.withFetchWord 16 w.toNat).mem.read16 (s.withFetchWord 16 w.toNat).pc.toNat = w := by
    rw [State.withFetchWord, tableWord_toNat]
    exact read16_write16_same w hle hm
  rw [step_of_fetchable (s := s.withFetchWord 16 w.toNat) rfl hle heven, hword]
  rfl

/-! ### The obligations -/

/-- Settles O9: each clause says which bytes of the read word are among the two written. -/
theorem wordWriteThenReadGivesTheWordAndKeepsTheRest :
    Obligations.WordWriteThenReadGivesTheWordAndKeepsTheRest :=
  fun m _ w hm ha => ⟨read16_write16_same w ha hm, fun _ => read_write16_other w m,
    fun _ => read16_write16_below w ha hm, read16_write16_above w ha hm,
    fun _ => read16_write16_disjoint w m⟩

/-- Settles O10, by induction along the two lists. -/
theorem canonicalMemoriesThatReadTheSameAreEqual :
    Obligations.CanonicalMemoriesThatReadTheSameAreEqual :=
  fun _ _ => eq_of_read_eq

/-- Settles O47: the counter is made fetchable, and the word is read back there. -/
theorem thePlacedWordIsTheOneTheNextStepRuns : Obligations.ThePlacedWordIsTheOneTheNextStepRuns :=
  fun s w hm => ⟨decodeWord w, by rw [decodeTableWord_16, tableWord_toNat], rfl,
    step_withFetchWord hm w⟩

end Sys2Proof.Machine
end

section
/-! Proofs about the ends of a run (60_exceptions.md R132 to R136): the cause of each as a predicate on the
state before the step, that a step ends a run in a status exactly where its cause holds, what a fatal
condition leaves, and what host commands keep (45_host_interface.md R110, R111). -/

namespace Sys2Proof.Machine

/-! ### The causes (R132, in the order of R135) -/

/-- R81: the fetch check passes. -/
def Fetchable (s : State) : Prop := s.pc.toNat ≤ Config.LAST_WORD ∧ s.pc.toNat % 2 = 0

/-- R92, R132: when a step inside a run ends it with this status. -/
def EndCause (s : State) : Status → Prop
  | .running => False
  | .halted => Fetchable s ∧ fetchWord s = 0x0000#16
  | .faulted (.fetchOutOfBounds p) => s.pc.toNat > Config.LAST_WORD ∧ p = s.pc
  | .faulted (.fetchMisaligned p) => s.pc.toNat ≤ Config.LAST_WORD ∧ s.pc.toNat % 2 = 1 ∧ p = s.pc
  | .faulted (.unimplementedOpcode w) => Fetchable s ∧ w = fetchWord s ∧ matchesNoRow w = true
  | .faulted .stackOverflow =>
    Fetchable s ∧ matchesCall (fetchWord s) = true ∧ s.sp.val = Config.STACK_DEPTH
  | .faulted .stackUnderflow => Fetchable s ∧ fetchWord s = 0x00EE#16 ∧ s.sp.val = 0

theorem endCause_of_fetchFault {s : State} {f : Fault} (hf : fetchFault s = some f) :
    EndCause s (.faulted f) := by
  rcases fetchFault_cases s with ⟨hgt, h⟩ | ⟨hle, hodd, h⟩ | ⟨-, -, h⟩ <;> cases h.symm.trans hf
  · exact ⟨hgt, rfl⟩
  · exact ⟨hle, hodd, rfl⟩

/-- The decoder answers the catch-all row with the word itself. -/
theorem eq_of_decodeWord_unimplemented {w v : Word} (h : decodeWord w = .unimplemented v) : v = w := by
  have hw := encode_decodeWord w
  rwa [h] at hw

/-- Where a step inside a run does not go on, the cause of its status held. -/
theorem endCause_of_step {s t : State} (hr : s.status = .running) (hs : step s = .next t)
    (ht : t.status ≠ .running) : EndCause s t.status := by
  rcases step_running_cases hr hs with ⟨f, hf, rfl⟩ | ⟨hf, hcases⟩
  · exact endCause_of_fetchFault hf
  · have hfetch : Fetchable s := fetchable_of_fetchFault_eq_none hf
    rcases hcases with ⟨hd, rfl⟩ | ⟨w, hd, rfl⟩ | ⟨x, y, -, rfl⟩ | ⟨hd, hsp, rfl⟩ |
      ⟨-, -, -, -, -, -, -, -, hu⟩ | ⟨nnn, hd, hsp, rfl⟩ | ⟨nnn, -, -, -, -, -, -, -, hu⟩
    · exact ⟨hfetch, (matchesHalt_iff _).mp (rowOf_of_decodeWord hd)⟩
    · have hw := eq_of_decodeWord_unimplemented hd
      exact ⟨hfetch, hw, hw ▸ rowOf_of_decodeWord hd⟩
    · exact absurd hr ht
    · exact ⟨hfetch, (matchesRet_iff _).mp (rowOf_of_decodeWord hd), hsp⟩
    · exact absurd hu ht
    · exact ⟨hfetch, rowOf_of_decodeWord hd, hsp⟩
    · exact absurd hu ht

/-! ### Each cause brings its end -/

theorem step_of_fetchable_decode {s : State} {i : Instr} (hr : s.status = .running) (hf : Fetchable s)
    (hd : decodeWord (fetchWord s) = i) : step s = exec i (s.setPc (s.pc + 2#16)) := by
  obtain ⟨hle, heven⟩ := hf
  rw [← hd]
  exact step_of_fetchable hr hle heven

theorem step_of_endCause {s : State} {u : Status} (hr : s.status = .running) (h : EndCause s u) :
    ∃ t, step s = .next t ∧ t.status = u := by
  cases u with
  | running => exact h.elim
  | halted =>
    obtain ⟨hf, hw⟩ := h
    exact ⟨_, (step_of_fetchable_decode hr hf (hw ▸ decodeWord_haltWord)).trans (exec_halt _), rfl⟩
  | faulted f =>
    cases f with
    | fetchOutOfBounds p =>
      obtain ⟨hgt, rfl⟩ := h
      exact ⟨_, step_of_fetchFault hr (fetchFault_of_gt hgt), rfl⟩
    | fetchMisaligned p =>
      obtain ⟨hle, hodd, rfl⟩ := h
      exact ⟨_, step_of_fetchFault hr (fetchFault_of_odd hle hodd), rfl⟩
    | unimplementedOpcode w =>
      obtain ⟨hf, rfl, hrow⟩ := h
      exact ⟨_, (step_of_fetchable_decode hr hf (decodeWord_unimplemented hrow)).trans
        (exec_unimplemented _ _), rfl⟩
    | stackOverflow =>
      obtain ⟨hf, hrow, hsp⟩ := h
      exact ⟨_, (step_of_fetchable_decode hr hf (decodeWord_call ((matchesCall_iff _).mp hrow))).trans
        (exec_call_of_full _ hsp), rfl⟩
    | stackUnderflow =>
      obtain ⟨hf, hw, hsp⟩ := h
      exact ⟨_, (step_of_fetchable_decode hr hf (hw ▸ decodeWord_retWord)).trans
        (exec_ret_of_zero hsp), rfl⟩

/-- A step inside a run ends it with a status exactly where the cause of that status holds. -/
theorem step_status_eq_iff {s t : State} (hr : s.status = .running) (hs : step s = .next t)
    {u : Status} (hu : u ≠ .running) : t.status = u ↔ EndCause s u := by
  refine ⟨fun h => h ▸ endCause_of_step hr hs (h ▸ hu), fun h => ?_⟩
  obtain ⟨t', hs', hu'⟩ := step_of_endCause hr h
  cases hs.symm.trans hs'
  exact hu'

/-! ### What a fatal condition leaves (R133, R134) -/

/-- The faults the fetch check raises. -/
def IsFetchFault (f : Fault) : Prop := (∃ p, f = .fetchOutOfBounds p) ∨ ∃ p, f = .fetchMisaligned p

/-- The faults raised after dispatch. -/
def IsDispatchFault (f : Fault) : Prop :=
  f = .stackOverflow ∨ f = .stackUnderflow ∨ ∃ w, f = .unimplementedOpcode w

theorem isFetchFault_of_fetchFault {s : State} {f : Fault} (hf : fetchFault s = some f) :
    IsFetchFault f := by
  rcases fetchFault_cases s with ⟨-, h⟩ | ⟨-, -, h⟩ | ⟨-, -, h⟩ <;> cases h.symm.trans hf
  · exact .inl ⟨_, rfl⟩
  · exact .inr ⟨_, rfl⟩

/-- A fetch fault changes the status; a fault after dispatch changes the status and the advance. -/
theorem step_fault_cases {s t : State} {f : Fault} (hr : s.status = .running) (hs : step s = .next t)
    (ht : t.status = .faulted f) :
    (IsFetchFault f ∧ t = s.setStatus (.faulted f)) ∨
      (IsDispatchFault f ∧ t = (s.setPc (s.pc + 2#16)).setStatus (.faulted f)) := by
  rcases step_running_cases hr hs with ⟨g, hg, rfl⟩ | ⟨-, hcases⟩
  · cases ht
    exact .inl ⟨isFetchFault_of_fetchFault hg, rfl⟩
  · rcases hcases with ⟨-, rfl⟩ | ⟨w, -, rfl⟩ | ⟨x, y, -, rfl⟩ | ⟨-, -, rfl⟩ |
      ⟨-, -, -, -, -, -, -, -, hu⟩ | ⟨nnn, -, -, rfl⟩ | ⟨nnn, -, -, -, -, -, -, -, hu⟩
    · cases ht
    · cases ht
      exact .inr ⟨.inr (.inr ⟨w, rfl⟩), rfl⟩
    · cases hr.symm.trans ht
    · cases ht
      exact .inr ⟨.inr (.inl rfl), rfl⟩
    · cases hu.symm.trans ht
    · cases ht
      exact .inr ⟨.inl rfl, rfl⟩
    · cases hu.symm.trans ht

/-! ### What commands can change (R110, R111) -/

theorem hostCommand_keeps_stack_status {c : Command} (hc : c ≠ .run) (s : State) :
    (hostCommand c s).1.stack = s.stack ∧ (hostCommand c s).1.sp = s.sp ∧
      (hostCommand c s).1.status = s.status := by
  rcases hostCommand_cases c s with he | ⟨i, v, -, he⟩ | ⟨v, -, -, -, he⟩ | ⟨a, w, -, -, he⟩ |
    ⟨hrun, he⟩ <;> rw [he]
  · exact ⟨rfl, rfl, rfl⟩
  · exact ⟨rfl, rfl, rfl⟩
  · exact ⟨rfl, rfl, rfl⟩
  · exact ⟨rfl, rfl, rfl⟩
  · exact absurd hrun hc

/-- No step of a run writes memory. -/
theorem run_mem (s : State) : (run s).1.mem = s.mem := by
  by_cases hf : ∃ f, s.status = .faulted f
  · obtain ⟨f, hf⟩ := hf
    rw [run_faulted hf]
  · rw [run_unfaulted (not_exists.mp hf)]
    exact runLoop_keeps (P := fun t => t.mem = s.mem) (fun _ _ h hs => (step_mem hs).trans h) _ _ rfl

/-- R136: a fault is never left. No other command writes the status, and `run` returns the fault. -/
theorem hostCommand_status_of_faulted {s : State} {f : Fault} (h : s.status = .faulted f) (c : Command) :
    (hostCommand c s).1.status = .faulted f := by
  by_cases hc : c = .run
  · have hstate : (hostCommand c s).1 = (run s).1 := by rw [hc]; rfl
    rw [hstate, run_faulted h]
    exact h
  · obtain ⟨-, -, hu⟩ := hostCommand_keeps_stack_status hc s
    exact hu.trans h

/-! ### The obligations -/

/-- Settles O28, by the ways a step can fault; the advance undone is the faulting address. -/
theorem fatalConditionsArePrecise : Obligations.FatalConditionsArePrecise := by
  intro s t f hr hs ht
  rcases step_fault_cases hr hs ht with h | ⟨hf, rfl⟩
  · exact .inl h
  · exact .inr ⟨hf, rfl, BitVec.add_sub_cancel s.pc 2#16⟩

/-- Settles O29: the clauses are the equivalence with `EndCause`, one for each status, and the codes are
`runResultCode`'s equations. -/
theorem eachEndOfARunHasItsCause : Obligations.EachEndOfARunHasItsCause := by
  refine ⟨fun s t hr hs => ?_, rfl, rfl, rfl, fun _ => rfl, fun _ => rfl, fun _ => rfl⟩
  have hend (u : Status) (hu : u ≠ .running) := step_status_eq_iff hr hs hu
  exact ⟨fun p => hend (.faulted (.fetchOutOfBounds p)) nofun,
    fun p => hend (.faulted (.fetchMisaligned p)) nofun,
    fun w => (hend (.faulted (.unimplementedOpcode w)) nofun).trans and_assoc,
    (hend (.faulted .stackOverflow) nofun).trans and_assoc,
    (hend (.faulted .stackUnderflow) nofun).trans and_assoc,
    (hend .halted nofun).trans and_assoc⟩

/-- Settles O30. -/
theorem aFaultIsStickyUntilANewInstance : Obligations.AFaultIsStickyUntilANewInstance :=
  ⟨fun _ _ h => ⟨fun _ hs => (nomatch (step_of_faulted h).symm.trans hs), run_faulted h,
    hostCommand_status_of_faulted h⟩, reset_status⟩

/-- Settles O36. -/
theorem onlyRunChangesStackAndStatusAndItWritesNoMemory :
    Obligations.OnlyRunChangesStackAndStatusAndItWritesNoMemory :=
  ⟨fun _ s hc => hostCommand_keeps_stack_status hc s, run_mem⟩

end Sys2Proof.Machine
end

section
/-! Proofs about the order of register and set-up operations: ADD and the incoming flag (42_arithmetic.md
R101, R104), and that set-up commands commute (70_reset_and_hazards.md R152). -/

namespace Sys2Proof.Machine

/-! ### Register writes -/

theorem writeReg_comm {i j : RegIdx} (h : i ≠ j) (s : State) (v w : Byte) :
    (s.writeReg i v).writeReg j w = (s.writeReg j w).writeReg i v :=
  state_ext rfl (Vector.set_comm (hi := i.isLt) (hj := j.isLt) v w (Fin.val_ne_of_ne h)) rfl rfl rfl rfl

theorem writeReg_writeReg_same (s : State) (i : RegIdx) (v w : Byte) :
    (s.writeReg i v).writeReg i w = s.writeReg i w :=
  state_ext rfl (Vector.set_set v i.isLt) rfl rfl rfl rfl

/-- R104: with neither operand VF, what VF held is overwritten unread. -/
theorem exec_add_writeReg_flag {x y : RegIdx} (hx : x ≠ flagIdx) (hy : y ≠ flagIdx) (s : State)
    (v : Byte) : exec (.add x y) (s.writeReg flagIdx v) = exec (.add x y) s := by
  rw [exec_add, exec_add, readReg_writeReg_other hx, readReg_writeReg_other hy,
    writeReg_comm hx.symm, writeReg_writeReg_same]

/-- R101: with a known exact sum the destination and the flag are known bytes. -/
theorem add_registers_of_sum {s t : State} {x y : RegIdx} {v c : Byte}
    (hsum : x ≠ flagIdx → (t.readReg x).toNat = ((s.readReg x).toNat + (s.readReg y).toNat) % 256)
    (hcarry : (t.readReg flagIdx).toNat =
      if (s.readReg x).toNat + (s.readReg y).toNat > 255 then 1 else 0)
    {n : Nat} (hn : (s.readReg x).toNat + (s.readReg y).toNat = n)
    (hv : n % 256 = v.toNat) (hc : (if n > 255 then 1 else 0) = c.toNat) :
    (x ≠ flagIdx → t.readReg x = v) ∧ t.readReg flagIdx = c := by
  rw [hn] at hsum hcarry
  exact ⟨fun hx => BitVec.eq_of_toNat_eq ((hsum hx).trans hv), BitVec.eq_of_toNat_eq (hcarry.trans hc)⟩

/-! ### The states that set-up commands leave, checks included -/

theorem writeRegister_state (i : Nat) (v : Byte) (s : State) :
    (hostCommand (.writeRegister i v) s).1 = if h : i < Config.NREGS then s.writeReg ⟨i, h⟩ v else s :=
  apply_dite Prod.fst _ _ _

theorem setProgramCounter_state (v : Nat) (s : State) :
    (hostCommand (.setProgramCounter v) s).1 =
      if v ≥ Config.MEM_SIZE ∨ v % 2 = 1 then s else s.setPc (BitVec.ofNat 16 v) :=
  apply_ite Prod.fst _ _ _

theorem writeInstruction_state (a : Nat) (w : Word) (s : State) :
    (hostCommand (.writeInstruction a w) s).1 =
      if a > Config.LAST_WORD then s else s.setMem (s.mem.write16 a w) :=
  apply_ite Prod.fst _ _ _

/-! ### Set-up commands in any order (R152) -/

theorem setProgramCounter_writeRegister_comm (s : State) (i v : Nat) (b : Byte) :
    (hostCommand (.setProgramCounter v) (hostCommand (.writeRegister i b) s).1).1 =
      (hostCommand (.writeRegister i b) (hostCommand (.setProgramCounter v) s).1).1 := by
  simp only [setProgramCounter_state, writeRegister_state]
  split_ifs <;> rfl

theorem writeInstruction_writeRegister_comm (s : State) (i a : Nat) (b : Byte) (w : Word) :
    (hostCommand (.writeInstruction a w) (hostCommand (.writeRegister i b) s).1).1 =
      (hostCommand (.writeRegister i b) (hostCommand (.writeInstruction a w) s).1).1 := by
  simp only [writeInstruction_state, writeRegister_state]
  split_ifs <;> rfl

theorem writeInstruction_setProgramCounter_comm (s : State) (v a : Nat) (w : Word) :
    (hostCommand (.writeInstruction a w) (hostCommand (.setProgramCounter v) s).1).1 =
      (hostCommand (.setProgramCounter v) (hostCommand (.writeInstruction a w) s).1).1 := by
  simp only [writeInstruction_state, setProgramCounter_state]
  split_ifs <;> rfl

theorem writeRegister_comm {i j : Nat} (h : i ≠ j) (s : State) (b c : Byte) :
    (hostCommand (.writeRegister i b) (hostCommand (.writeRegister j c) s).1).1 =
      (hostCommand (.writeRegister j c) (hostCommand (.writeRegister i b) s).1).1 := by
  simp only [writeRegister_state]
  split_ifs
  · exact writeReg_comm (fun he => h (congrArg Fin.val he).symm) s c b
  · rfl
  · rfl
  · rfl

/-- Disjoint words: the two memories are canonical and read the same. -/
theorem write16_comm {a a' : Nat} (w w' : Word) {m : Memory} (hm : m.wf = true)
    (ha' : a' ≤ Config.LAST_WORD) (h : a + 1 < a') :
    (m.write16 a' w').write16 a w = (m.write16 a w).write16 a' w' := by
  have ha : a ≤ Config.LAST_WORD := by omega
  refine eq_of_read_eq (write16_wf ha w (write16_wf ha' w' hm)) (write16_wf ha' w' (write16_wf ha w hm))
    fun b => ?_
  rw [read_write16 a b w ha (write16_wf ha' w' hm), read_write16 a' b w' ha' hm,
    read_write16 a' b w' ha' (write16_wf ha w hm), read_write16 a b w ha hm]
  by_cases hb : b = a ∨ b = a + 1
  · simp only [if_neg (show b ≠ a' by omega), if_neg (show b ≠ a' + 1 by omega)]
  · simp only [if_neg (show b ≠ a by omega), if_neg (show b ≠ a + 1 by omega)]

theorem writeInstruction_comm {a a' : Nat} (h : a + 1 < a') {s : State} (hm : s.mem.wf = true)
    (w w' : Word) :
    (hostCommand (.writeInstruction a w) (hostCommand (.writeInstruction a' w') s).1).1 =
      (hostCommand (.writeInstruction a' w') (hostCommand (.writeInstruction a w) s).1).1 := by
  simp only [writeInstruction_state]
  by_cases ha' : a' > Config.LAST_WORD
  · rw [if_pos ha', if_pos ha']
  · have ha : ¬a > Config.LAST_WORD := by omega
    rw [if_neg ha', if_neg ha', if_neg ha, if_neg ha]
    exact congrArg s.setMem (write16_comm w w' hm (Nat.le_of_not_gt ha') h)

/-- Words that may overlap: for each byte the later write counts. -/
theorem read_writeInstruction_twice {a a' : Nat} (ha : a ≤ Config.LAST_WORD)
    (ha' : a' ≤ Config.LAST_WORD) {s : State} (hm : s.mem.wf = true) (b : Nat) (w w' : Word) :
    (hostCommand (.writeInstruction a' w') (hostCommand (.writeInstruction a w) s).1).1.mem.read b =
      if b = a' then highByte w' else if b = a' + 1 then lowByte w'
      else if b = a then highByte w else if b = a + 1 then lowByte w else s.mem.read b := by
  simp only [hostCommand_writeInstruction_of_le ha, hostCommand_writeInstruction_of_le ha', setMem_mem]
  rw [read_write16 a' b w' ha' (write16_wf ha w hm), read_write16 a b w ha hm]

/-! ### The obligations -/

/-- Settles O21, each corner from the sum, the carry and the frame of ADD. -/
theorem addCornerCases : Obligations.AddCornerCases := by
  intro s x y
  obtain ⟨t, ht, hsum, hcarry, hframe, -⟩ := exec_add_sum_carry_frame s x y
  refine ⟨t, ht, ?_, ?_, ?_, fun hn => add_registers_of_sum hsum hcarry hn rfl rfl,
    fun hn => add_registers_of_sum hsum hcarry hn rfl rfl,
    fun hn => add_registers_of_sum hsum hcarry hn rfl rfl⟩
  · rintro rfl
    exact ⟨fun hx => by rw [hsum hx, Nat.two_mul], hcarry.trans (if_congr (by omega) rfl rfl)⟩
  · rintro rfl hx
    exact hsum hx
  · rintro rfl
    exact ⟨hcarry, fun i hi => hframe i hi hi⟩

/-- Settles O22. -/
theorem addDoesNotReadTheIncomingFlag : Obligations.AddDoesNotReadTheIncomingFlag :=
  fun s _ _ v hx hy => exec_add_writeReg_flag hx hy s v

/-- Settles O37, by one lemma for each pair of commands. -/
theorem setUpCommandsCommute : Obligations.SetUpCommandsCommute :=
  ⟨setProgramCounter_writeRegister_comm, writeInstruction_writeRegister_comm,
    writeInstruction_setProgramCounter_comm, fun s _ _ b c h => writeRegister_comm h s b c,
    fun _ _ _ w w' hm h => writeInstruction_comm h hm w w',
    fun _ _ _ b w w' hm ha ha' => read_writeInstruction_twice ha ha' hm b w w'⟩

end Sys2Proof.Machine
end
